-- ==== Sys2Proof/Word.lean ====
section
/-! DEFINITION. The word and byte types of the machine (spec/00_scope.md R7 and R9). -/

namespace Sys2Proof

/-- A data word and a register: `XLEN` = 32 bits (R7, R21). -/
abbrev Word := BitVec 32

/-- A memory cell and an encoding byte: `BYTE` = 8 bits (R7, R20, R60). -/
abbrev Byte := BitVec 8

end Sys2Proof
end

