-- ==== Sys2Proof/Config.lean ====
section
/-! DEFINITION. The parameters this hardware fixes (spec/00_scope.md R7). The one parameter the spec leaves open, the output
sink (R8, D8), is data of the machine state: `Machine.Sink` in Sys2Proof/Machine/State.lean. -/

namespace Sys2Proof

/-- `MEMORY_SIZE`: bytes of memory, at addresses 0 to 4095 (R7, R20). -/
abbrev Config.memorySize : Nat := 4096

/-- `NREG`: the number of registers (R7, R21). -/
abbrev Config.numRegs : Nat := 16

/-- The index of a register that exists: 0 to 15 (R22, R23). -/
abbrev RegIx := Fin Config.numRegs

/-- `IP_REG`: the register that is the instruction pointer (R7, R22). -/
abbrev Config.ipReg : RegIx := 0

/-- The longest instruction, in bytes (R7, R60). -/
abbrev Config.maxWidth : Nat := 4

end Sys2Proof
end

