-- ==== Sys2Proof/Syntax.lean ====
section
/-! DEFINITION. The instructions: one constructor per row of spec/opcode_table.json (spec/30_encoding.md R61 and R64). Register
operands are whole unsigned bytes: 16 to 255 decode, and fail when the instruction runs (R62). -/

namespace Sys2Proof

/-- The eight defined opcodes (R64). -/
inductive Opcode where
  | moveIf | store | load | loadImmediate | subtract | outputChar | halt | outputNumber
  deriving DecidableEq, Repr

/-- An instruction with its operands, in the order of R61. -/
inductive Instr where
  /-- `move-if rA, rB, rC` (R100): A the destination, B the source, C the condition. -/
  | moveIf (a b c : Byte)
  /-- `store rA, rB` (R101): A holds the address, B the value. -/
  | store (a b : Byte)
  /-- `load rA, rB` (R102): A the destination, B holds the address. -/
  | load (a b : Byte)
  /-- `load-immediate rA, imm` (R103): A the destination, `imm` the 16 bits `(H << 8) | L` of R63. -/
  | loadImmediate (a : Byte) (imm : BitVec 16)
  /-- `subtract rA, rB, rC` (R140): A the destination, B the minuend, C the subtrahend. -/
  | subtract (a b c : Byte)
  /-- `output-char rA` (R150). -/
  | outputChar (a : Byte)
  /-- `halt` (R153). -/
  | halt
  /-- `output-number rA` (R154). -/
  | outputNumber (a : Byte)
  deriving DecidableEq, Repr

/-- The opcode an instruction is written with. -/
def Instr.opcode : Instr → Opcode
  | .moveIf _ _ _ => .moveIf
  | .store _ _ => .store
  | .load _ _ => .load
  | .loadImmediate _ _ => .loadImmediate
  | .subtract _ _ _ => .subtract
  | .outputChar _ => .outputChar
  | .halt => .halt
  | .outputNumber _ => .outputNumber

/-- The register-operand bytes of an instruction's format (R86). The immediate of load-immediate is not one. -/
def Instr.regOperands : Instr → List Byte
  | .moveIf a b c => [a, b, c]
  | .store a b => [a, b]
  | .load a b => [a, b]
  | .loadImmediate a _ => [a]
  | .subtract a b c => [a, b, c]
  | .outputChar a => [a]
  | .halt => []
  | .outputNumber a => [a]

end Sys2Proof
end

