-- ==== Sys2Proof/WellFormed.lean ====
section
/-! DEFINITION. Which instructions name only registers that exist (spec/10_state.md R23 and R31). Every instruction, well-formed
or not, has an encoding, decodes and runs: one that is not well-formed fails with RegisterOutOfRange when it runs (R62, R86). -/

namespace Sys2Proof

/-- "An index is valid if and only if it is at most 15" (R23). -/
def regByteOk (r : Byte) : Bool := r.toNat < Config.numRegs

/-- Every register operand of the instruction names a register (R31, R86). -/
def Instr.wellFormed (i : Instr) : Bool := i.regOperands.all regByteOk

end Sys2Proof
end

