-- ==== Sys2Proof/Decode.lean ====
section
/-! DEFINITION. The decoder, total on any bytes and rejecting by name, and after it the encoder, both from the tables of
spec/30_encoding.md (R60 to R67). -/

namespace Sys2Proof

/-- The opcode map over all 256 byte values (R64): 0x00 and 0x09 to 0xFF name no instruction. -/
def Opcode.ofByte (b : Byte) : Option Opcode :=
  match b.toNat with
  | 1 => some .moveIf
  | 2 => some .store
  | 3 => some .load
  | 4 => some .loadImmediate
  | 5 => some .subtract
  | 6 => some .outputChar
  | 7 => some .halt
  | 8 => some .outputNumber
  | _ => none

/-- The opcode byte of an opcode (R64). -/
def Opcode.toByte : Opcode → Byte
  | .moveIf => 0x01
  | .store => 0x02
  | .load => 0x03
  | .loadImmediate => 0x04
  | .subtract => 0x05
  | .outputChar => 0x06
  | .halt => 0x07
  | .outputNumber => 0x08

/-- The instruction's length in bytes, opcode included, from the opcode alone (R64, R65). -/
def Opcode.width : Opcode → Nat
  | .moveIf => 4
  | .store => 3
  | .load => 3
  | .loadImmediate => 4
  | .subtract => 4
  | .outputChar => 2
  | .halt => 1
  | .outputNumber => 2

/-- The width of an instruction (R60, R64). -/
def Instr.width (i : Instr) : Nat := i.opcode.width

/-- `imm16 = (H << 8) | L` (R63). -/
def immOfBytes (l h : Byte) : BitVec 16 := (h.setWidth 16 <<< 8) ||| l.setWidth 16

/-- L, the low byte of the immediate (R63, R68). -/
def immLow (imm : BitVec 16) : Byte := imm.extractLsb' 0 8

/-- H, the high byte of the immediate (R63, R68). -/
def immHigh (imm : BitVec 16) : Byte := imm.extractLsb' 8 8

/-- The instruction of an opcode with operand bytes `b1`, `b2` and `b3`, of which it takes as many as its format has (R61). -/
def Opcode.assemble (b1 b2 b3 : Byte) : Opcode → Instr
  | .moveIf => .moveIf b1 b2 b3
  | .store => .store b1 b2
  | .load => .load b1 b2
  | .loadImmediate => .loadImmediate b1 (immOfBytes b2 b3)
  | .subtract => .subtract b1 b2 b3
  | .outputChar => .outputChar b1
  | .halt => .halt
  | .outputNumber => .outputNumber b1

/-- What the decoder answers: an instruction and the bytes after it, or why there is none. -/
inductive Decoded where
  /-- An instruction, and the bytes that follow it. -/
  | instr (i : Instr) (rest : List Byte)
  /-- The first byte names no instruction (R66). -/
  | unknownOpcode
  /-- There are fewer bytes than the instruction's width, or none (R65). -/
  | truncated
  deriving DecidableEq, Repr

/-- Read one instruction from the front of a byte string (R60 to R67). The opcode is checked before the width (R65). -/
def decode : List Byte → Decoded
  | [] => .truncated
  | b0 :: bs =>
    match Opcode.ofByte b0 with
    | none => .unknownOpcode
    | some op =>
      if bs.length + 1 < op.width then .truncated
      else .instr (op.assemble (bs.getD 0 0) (bs.getD 1 0) (bs.getD 2 0)) (bs.drop (op.width - 1))

/-- The bytes of an instruction, lowest address first (R61). -/
def encode : Instr → List Byte
  | .moveIf a b c => [0x01, a, b, c]
  | .store a b => [0x02, a, b]
  | .load a b => [0x03, a, b]
  | .loadImmediate a imm => [0x04, a, immLow imm, immHigh imm]
  | .subtract a b c => [0x05, a, b, c]
  | .outputChar a => [0x06, a]
  | .halt => [0x07]
  | .outputNumber a => [0x08, a]

/-- A program image is "its instructions' bytes laid end to end" (R60). -/
def encodeImage (prog : List Instr) : List Byte := prog.flatMap encode

/-- The four bytes of an instruction word in the table's bit numbering, lowest address first: byte `k` is bits `8k+7 .. 8k`
(R61, the little-endian view), and every bit from `nbits` up is 0. -/
def tableBytes (nbits w : Nat) : List Byte :=
  [BitVec.ofNat 8 (w % 2 ^ nbits), BitVec.ofNat 8 (w % 2 ^ nbits / 2 ^ 8),
   BitVec.ofNat 8 (w % 2 ^ nbits / 2 ^ 16), BitVec.ofNat 8 (w % 2 ^ nbits / 2 ^ 24)]

/-- The instruction the decoder reads from a word numbered as spec/opcode_table.json numbers it. -/
def decodeTableWord (nbits w : Nat) : Option Instr :=
  match decode (tableBytes nbits w) with
  | .instr i _ => some i
  | .unknownOpcode => none
  | .truncated => none

end Sys2Proof
end

