-- ==== Sys2Proof/Machine/State.lean ====
section
/-! DEFINITION. The machine state as plain data (spec/10_state.md R20 to R32), the reasons a step can stop, and the state after
reset. The sink's answers are the model's own field (log entry 1). -/

namespace Sys2Proof.Machine

/-- The error kinds, in the order of their codes (spec/60_exceptions.md R201). -/
inductive ErrorKind where
  /-- The dispatcher: IP at or past the end, or the instruction does not fit (R202). -/
  | programCounterOutOfBounds
  /-- Every instruction with a register operand: an operand byte of 16 or more (R203). -/
  | registerOutOfRange
  /-- store and load: the word does not fit in memory (R204). -/
  | addressOutOfBounds
  /-- output-char: the value is no Unicode scalar value (R205). -/
  | invalidCodePoint
  /-- The dispatcher: the opcode byte names no instruction (R206). -/
  | unknownOpcode
  /-- output-char and output-number: the sink rejected the write (R207). -/
  | outputFailed
  /-- A kind of the taxonomy that nothing raises (R208, R94). -/
  | haltedTwice
  deriving DecidableEq, Repr

/-- The run status (R26). -/
inductive Status where
  | running
  | halted
  | failed (kind : ErrorKind)
  deriving DecidableEq, Repr

/-- One answer of the output sink to a write of the byte string `s` (R216, R217). -/
inductive SinkAnswer where
  /-- All of `s` is delivered. -/
  | ok
  /-- The first `k` bytes of `s` are delivered and the write fails; a `k` past the length of `s` delivers all of it (log entry 2). -/
  | fail (k : Nat)
  /-- The sink never answers (R217, D8). -/
  | never
  deriving DecidableEq, Repr

/-- The oracle `Sink` that the spec leaves open (R8, D8), as plain data: what the sink answers to the writes to come.
DESIGN CHOICE, log entry 1. -/
structure Sink where
  /-- The answers to the next writes, oldest first. -/
  answers : List SinkAnswer
  /-- The answer to every write after those. -/
  after : SinkAnswer
  deriving DecidableEq, Repr

/-- Memory as address and byte pairs, in the canonical form that `Memory.wf` states (R20, log entry 3). -/
abbrev Memory := List Host.Cell

/-- What an address that is not listed reads as: memory is zero where nothing was loaded or stored (R32, R242). -/
def Memory.unlisted : Byte := 0x00

/-- Every entry from `lo` on: addresses strictly rising, inside memory, and no entry equal to what an unlisted address reads as. -/
def Memory.wfFrom : Nat → Memory → Bool
  | _, [] => true
  | lo, (a, v) :: m =>
    decide (lo ≤ a) && (decide (a < Config.memorySize) && (decide (v ≠ Memory.unlisted) && Memory.wfFrom (a + 1) m))

/-- The canonical form of memory: equal memories are equal lists, and every address is one of the 4096 (R20). -/
def Memory.wf (m : Memory) : Bool := Memory.wfFrom 0 m

/-- The state of the machine (R20 to R32). -/
structure State where
  /-- The register bank `x[0]` to `x[15]`, the IP in `x[0]` (R21, R22). -/
  regs : Vector Word Config.numRegs
  /-- The memory `M` (R20). -/
  mem : Memory
  /-- The run status (R26). -/
  status : Status
  /-- The output trace: the bytes the sink accepted, oldest first (R30). -/
  out : List Byte
  /-- What the sink will answer; the model's own field (D8, log entry 1). -/
  sink : Sink
  deriving DecidableEq, Repr

/-- The reasons the machine stops with no next state. The spec's errors are no such reason: they are a next state with status
`Failed` (R200). -/
inductive Fault where
  /-- Raised by output-char and output-number when the sink never answers the write: the step is stuck (R217, D8, I3).
  Safe: the hardware takes no step here either. -/
  | sinkNeverAnswers
  deriving DecidableEq, Repr

/-- The reasons the model gives an instruction no meaning. -/
inductive Refusal where
  /-- Raised by an arm of `exec` whose instruction has no meaning yet; no arm is left so. Safe: the model stops. -/
  | notModelled (mnemonic : String)
  deriving DecidableEq, Repr

/-- The state right after construction from the empty image (R32, R240, R242): every register and byte 0, status Running, no
output. The sink's answers are a DESIGN CHOICE (log entry 1); no statement rests on them. -/
def State.reset : State where
  regs := Vector.replicate Config.numRegs 0
  mem := []
  status := .running
  out := []
  sink := { answers := [], after := .ok }

end Sys2Proof.Machine
end

