-- ==== Sys2Proof/Machine/Ops.lean ====
section
/-! DEFINITION. The named operations over registers, memory, the status and the sink: spec/10_state.md R23 and R24,
spec/20_memory.md R41 to R44, spec/60_exceptions.md R200 and R216. -/

namespace Sys2Proof.Machine

/-! ## Registers -/

/-- Read register `i` (R21). -/
def State.reg (s : State) (i : RegIx) : Word := s.regs[i.val]

/-- Write register `i`. A write of register 0 is a jump; the value is not checked here (R25, R89). -/
def State.setReg (s : State) (i : RegIx) (v : Word) : State := { s with regs := s.regs.set i.val v }

/-- `read_ip()` (R24). -/
def State.ip (s : State) : Word := s.reg Config.ipReg

/-- `advance_ip(n)`: `x[0] <- x[0] + n` modulo 2^32 (R24). -/
def State.advanceIp (n : Nat) (s : State) : State := s.setReg Config.ipReg (s.ip + BitVec.ofNat 32 n)

/-! ## Memory -/

/-- The byte at an address (R42). -/
def Memory.readByte : Memory → Nat → Byte
  | [], _ => Memory.unlisted
  | (a, v) :: m, x => if a = x then v else Memory.readByte m x

/-- Write one byte, keeping the canonical form. Called only for addresses inside memory. -/
def Memory.writeByte : Memory → Nat → Byte → Memory
  | [], x, v => if v = Memory.unlisted then [] else [(x, v)]
  | (a, w) :: m, x, v =>
    if x < a then (if v = Memory.unlisted then (a, w) :: m else (x, v) :: (a, w) :: m)
    else if x = a then (if v = Memory.unlisted then m else (x, v) :: m)
    else (a, w) :: Memory.writeByte m x v

/-- The bytes at `a`, `a + 1`, and so on, as many as `n` (R46). -/
def Memory.readBytes (m : Memory) (a : Nat) : Nat → List Byte
  | 0 => []
  | n + 1 => m.readByte a :: Memory.readBytes m (a + 1) n

/-- Write the bytes at `a`, `a + 1`, and so on, leaving out any that fall outside memory. -/
def Memory.writeBytes (m : Memory) (a : Nat) : List Byte → Memory
  | [] => m
  | b :: bs => Memory.writeBytes (if a < Config.memorySize then m.writeByte a b else m) (a + 1) bs

/-- Memory with the image at address `a` on, and nothing else listed (R242). -/
def Memory.ofImage (a : Nat) : List Byte → Memory
  | [] => []
  | b :: bs => if b = Memory.unlisted then Memory.ofImage (a + 1) bs else (a, b) :: Memory.ofImage (a + 1) bs

/-- Byte `k` of a word: bits `8k+7 .. 8k` (R41). -/
def byteOf (v : Word) (k : Nat) : Byte := v.extractLsb' (8 * k) 8

/-- The word of four bytes, the lowest address first (R42). -/
def wordOfBytes (b0 b1 b2 b3 : Byte) : Word :=
  b0.setWidth 32 ||| (b1.setWidth 32 <<< 8) ||| (b2.setWidth 32 <<< 16) ||| (b3.setWidth 32 <<< 24)

/-- The data-address bounds checker: `addr + 4 <= MEMORY_SIZE` on unbounded integers (R44, D7). -/
def wordFits (addr : Word) : Bool := addr.toNat + 4 ≤ Config.memorySize

/-- `MemRead(addr, 4)` (R42). -/
def Memory.readWord (m : Memory) (addr : Word) : Except ErrorKind Word :=
  if wordFits addr then
    .ok (wordOfBytes (m.readByte addr.toNat) (m.readByte (addr.toNat + 1)) (m.readByte (addr.toNat + 2))
      (m.readByte (addr.toNat + 3)))
  else .error .addressOutOfBounds

/-- `MemWrite(addr, 4, v)` (R43): all four bytes, or none. -/
def Memory.writeWord (m : Memory) (addr v : Word) : Except ErrorKind Memory :=
  if wordFits addr then
    .ok ((((m.writeByte addr.toNat (byteOf v 0)).writeByte (addr.toNat + 1) (byteOf v 1)).writeByte (addr.toNat + 2)
      (byteOf v 2)).writeByte (addr.toNat + 3) (byteOf v 3))
  else .error .addressOutOfBounds

/-- Replace the memory. -/
def State.setMem (s : State) (m : Memory) : State := { s with mem := m }

/-! ## Status: errors and halting -/

/-- Write the run status (R26). -/
def State.setStatus (s : State) (st : Status) : State := { s with status := st }

/-- `raise kind`: the one exception mechanism. The step ends with status `Failed(kind)`; every effect already made stays, and
there is no handler and no return (R11, R87, R200, R211). -/
def State.raise (s : State) (kind : ErrorKind) : Host.Outcome State Fault Refusal := .next (s.setStatus (.failed kind))

/-! ## The output sink -/

/-- The sink's answer to the next write (R216, D8). -/
def Sink.answer (k : Sink) : SinkAnswer :=
  match k.answers with
  | [] => k.after
  | a :: _ => a

/-- The sink once it has given that answer. -/
def Sink.advance (k : Sink) : Sink :=
  match k.answers with
  | [] => k
  | _ :: rest => { k with answers := rest }

/-- The sink has answered a write, of which `bytes` were delivered: they are appended to the trace (R216). -/
def State.deliver (s : State) (bytes : List Byte) : State := { s with out := s.out ++ bytes, sink := s.sink.advance }

/-- `Out(bytes)`: one write to the sink (R216, R217). The document leaves the answer to the sink; a failed write keeps the bytes
the sink accepted, and a sink that never answers leaves the step stuck. -/
def State.output (s : State) (bytes : List Byte) : Host.Outcome State Fault Refusal :=
  match s.sink.answer with
  | .ok => .next (s.deliver bytes)
  | .fail k => (s.deliver (bytes.take k)).raise .outputFailed
  | .never => .fault .sinkNeverAnswers

/-! ## Placing an instruction for the next fetch -/

/-- The state with the bytes stored at the instruction pointer and the status Running: what the next fetch needs to find them
(log entry 6). -/
def State.placeAtIp (s : State) (bytes : List Byte) : State :=
  (s.setMem (s.mem.writeBytes s.ip.toNat bytes)).setStatus .running

end Sys2Proof.Machine
end

