-- ==== Sys2Proof/Machine/Operands.lean ====
section
/-! DEFINITION. The operand forms: register bytes and their validation (spec/30_encoding.md R62, spec/40_dispatch.md R86), the
register bank's accessor (spec/10_state.md R23), and the immediate (R63). A handler validates every register operand before it
reads or writes any register; the formats 1R, 2R and 3R each have one operation that does it. -/

namespace Sys2Proof.Machine

/-- The register a register-operand byte names: 0 to 15 name `x[r]`, 16 to 255 name none (R23, R62). -/
def regIndex? (r : Byte) : Option RegIx :=
  if h : r.toNat < Config.numRegs then some ⟨r.toNat, h⟩ else none

/-- The operand byte that names a register. -/
def regByte (i : RegIx) : Byte := BitVec.ofNat 8 i.val

/-- `set_register(r, v)`, the bank's write accessor: fails with RegisterOutOfRange if `r > 15` and then changes nothing (R23). -/
def State.setRegister (s : State) (r : Byte) (v : Word) : Except ErrorKind State :=
  match regIndex? r with
  | some i => .ok (s.setReg i v)
  | none => .error .registerOutOfRange

/-- One register operand, validated (R86, formats 1R and RI). -/
def State.withReg (s : State) (a : Byte) (k : RegIx → Host.Outcome State Fault Refusal) : Host.Outcome State Fault Refusal :=
  match regIndex? a with
  | some i => k i
  | none => s.raise .registerOutOfRange

/-- Two register operands, both validated before either is used (R86, format 2R). -/
def State.withRegs2 (s : State) (a b : Byte) (k : RegIx → RegIx → Host.Outcome State Fault Refusal) :
    Host.Outcome State Fault Refusal :=
  s.withReg a fun i => s.withReg b fun j => k i j

/-- Three register operands, all validated before any is used, whatever the effect reads (R86, D6, format 3R). -/
def State.withRegs3 (s : State) (a b c : Byte) (k : RegIx → RegIx → RegIx → Host.Outcome State Fault Refusal) :
    Host.Outcome State Fault Refusal :=
  s.withReg a fun i => s.withReg b fun j => s.withReg c fun l => k i j l

/-- `sext_32(imm16)`: bit 15 copied into bits 31 to 16 (R11, R63). -/
def immValue (imm : BitVec 16) : Word := imm.signExtend 32

end Sys2Proof.Machine
end

