-- ==== Sys2Proof/Machine/Arithmetic.lean ====
section
/-! DEFINITION. Arithmetic, opcode 5 (spec/42_arithmetic.md). -/

namespace Sys2Proof.Machine

/-- subtract (R140): modulo 2^32, with no flag and no fault on overflow (R141). -/
def execSubtract (a b c : Byte) (s : State) : Host.Outcome State Fault Refusal :=
  let s := s.advanceIp 4
  s.withRegs3 a b c fun a b c => .next (s.setReg a (s.reg b - s.reg c))

end Sys2Proof.Machine
end

