-- ==== Sys2Proof/Machine/MoveAndMemory.lean ====
section
/-! DEFINITION. Register moves and memory, opcodes 1 to 4 (spec/41_move_and_memory.md). Each handler's first action is the IP
advance (spec/40_dispatch.md R85), so every operand read of register 0 gives the address of the next instruction (R88). -/

namespace Sys2Proof.Machine

/-- move-if (R100). -/
def execMoveIf (a b c : Byte) (s : State) : Host.Outcome State Fault Refusal :=
  let s := s.advanceIp 4
  s.withRegs3 a b c fun a b c => .next (if s.reg c ≠ 0 then s.setReg a (s.reg b) else s)

/-- store (R101): A holds the address, B the value. -/
def execStore (a b : Byte) (s : State) : Host.Outcome State Fault Refusal :=
  let s := s.advanceIp 3
  s.withRegs2 a b fun a b =>
    match s.mem.writeWord (s.reg a) (s.reg b) with
    | .ok m => .next (s.setMem m)
    | .error k => s.raise k

/-- load (R102): B holds the address, A is the destination. -/
def execLoad (a b : Byte) (s : State) : Host.Outcome State Fault Refusal :=
  let s := s.advanceIp 3
  s.withRegs2 a b fun a b =>
    match s.mem.readWord (s.reg b) with
    | .ok v => .next (s.setReg a v)
    | .error k => s.raise k

/-- load-immediate (R103). -/
def execLoadImmediate (a : Byte) (imm : BitVec 16) (s : State) : Host.Outcome State Fault Refusal :=
  let s := s.advanceIp 4
  s.withReg a fun a => .next (s.setReg a (immValue imm))

end Sys2Proof.Machine
end

