-- ==== Sys2Proof/Machine/Text.lean ====
section
/-! DEFINITION. The bytes the output instructions write: Unicode scalar values and UTF-8 (spec/43_output_and_halt.md R151 and
R152, general knowledge G1 and G2) and signed decimal text (R155, D10, G3). -/

namespace Sys2Proof.Machine

/-- `isScalar(v)`: at most 0x10FFFF and no surrogate (R151). -/
def isScalar (v : Word) : Bool := v.toNat ≤ 0x10FFFF && !(0xD800 ≤ v.toNat && v.toNat ≤ 0xDFFF)

/-- The bits `n - 1 + lo .. lo` of a code point, as the low bits of a byte (R152). -/
def codeBits (v : Word) (lo n : Nat) : Byte := (v.extractLsb' lo n).setWidth 8

/-- `utf8(v)`, first byte first (R152). -/
def utf8 (v : Word) : List Byte :=
  if v.toNat ≤ 0x7F then [codeBits v 0 8]
  else if v.toNat ≤ 0x7FF then [0xC0 ||| codeBits v 6 5, 0x80 ||| codeBits v 0 6]
  else if v.toNat ≤ 0xFFFF then [0xE0 ||| codeBits v 12 4, 0x80 ||| codeBits v 6 6, 0x80 ||| codeBits v 0 6]
  else [0xF0 ||| codeBits v 18 3, 0x80 ||| codeBits v 12 6, 0x80 ||| codeBits v 6 6, 0x80 ||| codeBits v 0 6]

/-- The ASCII byte of a decimal digit, 0x30 to 0x39 (R155, G3). -/
def digitByte (d : Nat) : Byte := BitVec.ofNat 8 (0x30 + d)

/-- The base-10 digits of `m`, most significant first, no leading zero, for `m` of at most `fuel` digits (R155). -/
def digitsUpTo : Nat → Nat → List Byte
  | 0, _ => []
  | fuel + 1, m => if m < 10 then [digitByte m] else digitsUpTo fuel (m / 10) ++ [digitByte (m % 10)]

/-- `digits(m)`. The magnitude of a 32-bit signed value has at most ten digits (R155). -/
def digits (m : Nat) : List Byte := digitsUpTo 10 m

/-- `decimal(n)`: a minus sign when `n < 0`, then the digits of its magnitude; nothing else (R155, D10). -/
def decimal (n : Int) : List Byte := if n < 0 then 0x2D :: digits n.natAbs else digits n.natAbs

end Sys2Proof.Machine
end

