-- ==== Sys2Proof/Machine/OutputAndHalt.lean ====
section
/-! DEFINITION. Output and halt, opcodes 6, 7 and 8 (spec/43_output_and_halt.md). -/

namespace Sys2Proof.Machine

/-- output-char (R150): the whole 32-bit register is the code point (D9). -/
def execOutputChar (a : Byte) (s : State) : Host.Outcome State Fault Refusal :=
  let s := s.advanceIp 2
  s.withReg a fun a => if isScalar (s.reg a) then s.output (utf8 (s.reg a)) else s.raise .invalidCodePoint

/-- halt (R153): the dedicated halt transition (R90, R94). -/
def execHalt (s : State) : Host.Outcome State Fault Refusal := .next ((s.advanceIp 1).setStatus .halted)

/-- output-number (R154): the register read as a 32-bit signed integer. -/
def execOutputNumber (a : Byte) (s : State) : Host.Outcome State Fault Refusal :=
  let s := s.advanceIp 2
  s.withReg a fun a => s.output (decimal (s.reg a).toInt)

end Sys2Proof.Machine
end

