-- ==== Sys2Proof/Machine/Dispatch.lean ====
section
/-! DEFINITION. One arm per instruction (spec/40_dispatch.md R94). -/

namespace Sys2Proof.Machine

def exec (i : Instr) (s : State) : Host.Outcome State Fault Refusal :=
  match i with
  | .moveIf a b c => Sys2Proof.Machine.execMoveIf a b c s
  | .store a b => Sys2Proof.Machine.execStore a b s
  | .load a b => Sys2Proof.Machine.execLoad a b s
  | .loadImmediate a imm => Sys2Proof.Machine.execLoadImmediate a imm s
  | .subtract a b c => Sys2Proof.Machine.execSubtract a b c s
  | .outputChar a => Sys2Proof.Machine.execOutputChar a s
  | .halt => Sys2Proof.Machine.execHalt s
  | .outputNumber a => Sys2Proof.Machine.execOutputNumber a s

end Sys2Proof.Machine
end

