-- ==== Sys2Proof/Machine/Fetch.lean ====
section
/-! DEFINITION. Fetch and decode: the checks of the dispatch step before the IP advance (spec/40_dispatch.md R81 to R84). -/

namespace Sys2Proof.Machine

/-- The instruction at the IP, or the error its fetch ends with, checked in the order of R91: the IP bound (R81), the opcode
(R82), the width (R83). Operand bytes are read at the instruction's own address, before any effect (R84). -/
def fetch (s : State) : Except ErrorKind Instr :=
  let pc := s.ip.toNat
  if Config.memorySize ≤ pc then .error .programCounterOutOfBounds
  else
    match Opcode.ofByte (s.mem.readByte pc) with
    | none => .error .unknownOpcode
    | some op =>
      if Config.memorySize < pc + op.width then .error .programCounterOutOfBounds
      else .ok (op.assemble (s.mem.readByte (pc + 1)) (s.mem.readByte (pc + 2)) (s.mem.readByte (pc + 3)))

end Sys2Proof.Machine
end

