-- ==== Sys2Proof/Machine/Step.lean ====
section
/-! DEFINITION. The dispatch step (spec/40_dispatch.md R91). -/

namespace Sys2Proof.Machine

/-- One step. In Halted and Failed it changes nothing (R80, D4). A failed fetch ends the step with only the status changed
(R81 to R83); otherwise the handler of the fetched instruction runs, the IP advance its first action (R85 to R90). -/
def step (s : State) : Host.Outcome State Fault Refusal :=
  match s.status with
  | .running =>
    match fetch s with
    | .ok i => exec i s
    | .error k => s.raise k
  | .halted => .next s
  | .failed _ => .next s

/-- The state with the table's instruction word stored where the next step fetches, and the status Running (log entry 6). -/
def State.withFetchWord (s : State) (nbits w : Nat) : State := s.placeAtIp (tableBytes nbits w)

end Sys2Proof.Machine
end

