-- ==== Sys2Proof/Machine/Pseudo.lean ====
section
/-! DEFINITION. The pseudo-instructions of spec/30_encoding.md R69, each one instruction of the machine (D15).
The text of an assembler is outside the block (spec/00_scope.md R4). -/

namespace Sys2Proof.Machine

/-- `jump imm` (R69). -/
def pseudoJump (imm : BitVec 16) : Instr := .loadImmediate (regByte 0) imm

/-- `jump-if-nonzero rC, rT` (R69). -/
def pseudoJumpIfNonzero (c t : RegIx) : Instr := .moveIf (regByte 0) (regByte t) (regByte c)

/-- `move rA, rB` (R69). -/
def pseudoMove (a b : RegIx) : Instr := .moveIf (regByte a) (regByte b) (regByte 0)

/-- `link rA` (R69). -/
def pseudoLink (a : RegIx) : Instr := .moveIf (regByte a) (regByte 0) (regByte 0)

/-- `clear rA` (R69). -/
def pseudoClear (a : RegIx) : Instr := .subtract (regByte a) (regByte a) (regByte a)

/-- `nop` (R69). -/
def pseudoNop : Instr := .moveIf (regByte 1) (regByte 1) (regByte 1)

end Sys2Proof.Machine
end

