-- ==== Sys2Proof/Machine/Flags.lean ====
section
/-! DEFINITION. The machine has no flags, condition codes or predicates (spec/10_state.md R28), so no instruction computes one.
Its one status view is the read-only word STATUS, a function of the run status (R27). -/

namespace Sys2Proof.Machine

/-- The `ERR` code of an error kind (spec/60_exceptions.md R201; the numbers are the spec's own choice, D3). -/
def ErrorKind.code : ErrorKind → Nat
  | .programCounterOutOfBounds => 1
  | .registerOutOfRange => 2
  | .addressOutOfBounds => 3
  | .invalidCodePoint => 4
  | .unknownOpcode => 5
  | .outputFailed => 6
  | .haltedTwice => 7

/-- The word STATUS: `STATE` in bits 1:0, `ERR` in bits 7:4, every other bit 0 (R27, D3). -/
def statusWord : Status → Word
  | .running => 0x00000000
  | .halted => 0x00000001
  | .failed k => 0x2#32 ||| (BitVec.ofNat 32 k.code <<< 4)

end Sys2Proof.Machine
end

