-- ==== Sys2Proof/Machine/HostInterface.lean ====
section
/-! DEFINITION. The host's transactions LOAD, STEP, RUN, READ_REG, READ_MEM and READ_STATUS (spec/60_exceptions.md R214 and
R215, spec/70_reset_and_hazards.md R240 to R245). The host writes no register, memory byte or STATUS (D12). -/

namespace Sys2Proof.Machine

/-- `LOAD(img)` on a block in state `s`: construction, which replaces the whole machine state and empties the trace; an image
longer than memory is refused and no machine exists (R240 to R242, D5, D18). The sink is outside the block and is kept (log
entry 5). -/
def load (img : List Byte) (s : State) : Option State :=
  if img.length ≤ Config.memorySize then some { State.reset with mem := Memory.ofImage 0 img, sink := s.sink } else none

/-- `READ_REG(i)`; an index above 15 is refused by the interface (R215, D11). -/
def readReg (i : Nat) (s : State) : Option Word := if h : i < Config.numRegs then some (s.reg ⟨i, h⟩) else none

/-- `READ_MEM(a)`; an address above 4095 is refused by the interface (R215, D11). -/
def readMem (a : Nat) (s : State) : Option Byte := if a < Config.memorySize then some (s.mem.readByte a) else none

/-- `READ_STATUS` (R27, R214). -/
def readStatus (s : State) : Word := statusWord s.status

/-- `STEP`: the state after the step and the STATUS word it answers with (R92); none where the sink never answers (R217). -/
def stepTransaction (s : State) : Option (State × Word) :=
  match step s with
  | .next t => some (t, readStatus t)
  | .fault _ => none
  | .refused _ => none

/-- `RUN` with at most `n` steps: the state in which the status is no longer Running, if the run gets there (R93). -/
def runFor : Nat → State → Option State
  | 0, s => if s.status = .running then none else some s
  | n + 1, s =>
    if s.status = .running then
      match step s with
      | .next t => runFor n t
      | .fault _ => none
      | .refused _ => none
    else some s

/-- The STATUS word `RUN` answers with when it ends within `n` steps; a run that never stops has no answer (R214). -/
def runAnswer (n : Nat) (s : State) : Option Word := (runFor n s).map readStatus

/-- `RUN` ends in state `t` (R93). -/
def RunEnds (s t : State) : Prop := ∃ n, runFor n s = some t

end Sys2Proof.Machine
end

