-- ==== Sys2Proof/Safety.lean ====
section
/-! DEFINITION. The terms claims are stated in: what an outcome's state is, the invariant of the machine, what counts as a safe
run, and readings that are independent of the meanings. -/

namespace Sys2Proof.Machine

/-- The next state of an outcome, if it is one. -/
def stateOf : Host.Outcome State Fault Refusal → Option State
  | .next t => some t
  | .fault _ => none
  | .refused _ => none

/-- What holds in every reachable state beyond what the types say (spec/10_state.md R20 and R31): memory is in its canonical form
over the 4096 addresses, and the error kind HaltedTwice is never recorded (spec/60_exceptions.md R208). -/
def Inv (s : State) : Prop := s.mem.wf = true ∧ s.status ≠ .failed .haltedTwice

/-- The value an operand read of register `r` gives in an instruction of width `w`: register 0 reads as the address of the next
instruction (spec/40_dispatch.md R88). -/
def operandValue (w : Nat) (s : State) (r : RegIx) : Word :=
  if r = Config.ipReg then s.ip + BitVec.ofNat 32 w else s.reg r

/-- Nothing outside the register bank differs. -/
def OnlyRegsDiffer (s t : State) : Prop := t.mem = s.mem ∧ t.status = s.status ∧ t.out = s.out ∧ t.sink = s.sink

/-- The outcome is the error `kind` after the advance by `w`: the IP has moved, and nothing else but the status has changed
(spec/40_dispatch.md R87, spec/60_exceptions.md R210). -/
def FailsAfterAdvance (kind : ErrorKind) (w : Nat) (s : State) (o : Host.Outcome State Fault Refusal) : Prop :=
  ∃ t, o = .next t ∧ (∀ r, t.reg r = operandValue w s r) ∧ t.mem = s.mem ∧ t.status = .failed kind ∧ t.out = s.out ∧
    t.sink = s.sink

/-- The outcome is that of a write of `bytes` to a sink that accepts all of it, after the advance by `w` (spec/60_exceptions.md
R216). -/
def OutputsAfterAdvance (bytes : List Byte) (w : Nat) (s : State) (o : Host.Outcome State Fault Refusal) : Prop :=
  ∃ t, o = .next t ∧ (∀ r, t.reg r = operandValue w s r) ∧ t.mem = s.mem ∧ t.status = s.status ∧ t.out = s.out ++ bytes ∧
    t.sink = s.sink.advance

/-- The outcome is that of a write of `bytes` of which the sink accepted the first `k` before it failed, after the advance by `w`
(spec/60_exceptions.md R207 and R216). -/
def OutputFailsAfterAdvance (bytes : List Byte) (k w : Nat) (s : State) (o : Host.Outcome State Fault Refusal) : Prop :=
  ∃ t, o = .next t ∧ (∀ r, t.reg r = operandValue w s r) ∧ t.mem = s.mem ∧ t.status = .failed .outputFailed ∧
    t.out = s.out ++ bytes.take k ∧ t.sink = s.sink.advance

/-- The bytes from the IP to the end of memory: what a fetch can read (spec/40_dispatch.md R83). -/
def bytesAtIp (s : State) : List Byte := s.mem.readBytes s.ip.toNat (Config.memorySize - s.ip.toNat)

/-- The step is not stuck on the sink. -/
def SafeStep (s : State) : Prop := ∃ t, step s = .next t

/-- The run from `s` halts: it ends, and with no error (spec/40_dispatch.md R93). -/
def HaltsCleanly (s : State) : Prop := ∃ t, RunEnds s t ∧ t.status = .halted

/-- The value of an ASCII digit. -/
def digitValue (b : Byte) : Option Nat := if 0x30 ≤ b.toNat ∧ b.toNat ≤ 0x39 then some (b.toNat - 0x30) else none

/-- Read a string of ASCII digits onto an accumulator. -/
def readDigits : Nat → List Byte → Option Nat
  | acc, [] => some acc
  | acc, b :: bs =>
    match digitValue b with
    | some d => readDigits (10 * acc + d) bs
    | none => none

/-- Read signed decimal text back: an optional minus sign and at least one digit. -/
def readDecimal : List Byte → Option Int
  | [] => none
  | b :: bs =>
    if b = 0x2D then (if bs = [] then none else (readDigits 0 bs).map fun n => -(n : Int))
    else (readDigits 0 (b :: bs)).map fun n => (n : Int)

end Sys2Proof.Machine
end

