-- ==== Sys2Proof/Certificates/Slice0/Obligations.lean ====
section
/-! DEFINITION. The statements for the provers, each formalising the rules of spec/ that its docstring names. -/

open Sys2Proof Sys2Proof.Machine

/-! ## Decoding and encoding -/

/-- R60 to R64: every instruction, with every operand byte and every immediate, is read back from its encoding, and the bytes
after it are left alone. No operand bit is dropped. -/
def Obligations.DecodeReadsBackEncode : Prop :=
  ∀ (i : Instr) (rest : List Byte), decode (encode i ++ rest) = .instr i rest

/-- R62, R64, R67: a byte string the decoder reads as an instruction is that instruction's encoding, so no bit is ignored and
there is no second encoding. -/
def Obligations.DecodedBytesAreTheEncoding : Prop :=
  ∀ (bs rest : List Byte) (i : Instr), decode bs = .instr i rest → bs = encode i ++ rest

/-- R64, R66: exactly the opcode bytes 0x00 and 0x09 to 0xFF are rejected as unknown, whatever follows. -/
def Obligations.UndefinedOpcodeBytesAreRejected : Prop :=
  ∀ (b : Byte) (bs : List Byte), decode (b :: bs) = .unknownOpcode ↔ b.toNat = 0 ∨ 9 ≤ b.toNat

/-- R65: the strings rejected as too short are exactly the proper beginnings of some instruction's encoding. -/
def Obligations.TruncatedStringsAreProperPrefixes : Prop :=
  ∀ bs : List Byte, decode bs = .truncated ↔ ∃ i : Instr, bs.length < i.width ∧ bs <+: encode i

/-- R61, R63, R68: the words of the spec's own examples, one for each format and instruction. -/
def Obligations.SpecExampleWordsDecode : Prop :=
  decode [0x01, 0x01, 0x02, 0x03] = .instr (.moveIf 1 2 3) [] ∧
  decode [0x02, 0x01, 0x02] = .instr (.store 1 2) [] ∧
  decode [0x03, 0x01, 0x02] = .instr (.load 1 2) [] ∧
  decode [0x04, 0x05, 0xD6, 0xFF] = .instr (.loadImmediate 5 0xFFD6) [] ∧
  decode [0x05, 0x01, 0x02, 0x03] = .instr (.subtract 1 2 3) [] ∧
  decode [0x06, 0x01] = .instr (.outputChar 1) [] ∧
  decode [0x07] = .instr .halt [] ∧
  decode [0x08, 0x01] = .instr (.outputNumber 1) []

/-! ## The dispatch step -/

/-- R91: where the bytes at the IP decode to an instruction, the step of a running machine is the handler of that instruction,
which makes the IP advance itself. Bytes past the end of memory are no part of it (R83). That the operand bytes are the ones at
the IP before the advance is the spec's decision D13 (log entry 17). -/
def Obligations.StepRunsDecodedInstruction : Prop :=
  ∀ (s : State) (i : Instr) (rest : List Byte), s.status = .running → decode (bytesAtIp s) = .instr i rest → step s = exec i s

/-- R80, whose answer to a step in a terminal state is the spec's decision D4 (log entry 7): nothing changes. -/
def Obligations.TerminalStepChangesNothing : Prop :=
  ∀ s : State, s.status ≠ .running → step s = .next s

/-- R81: an IP at or past the end of memory. -/
def Obligations.StepWithIpPastMemoryFails : Prop :=
  ∀ s : State, s.status = .running → Config.memorySize ≤ s.ip.toNat →
    step s = .next { s with status := .failed .programCounterOutOfBounds }

/-- R82, R206: an opcode byte that names no instruction, wherever in memory it stands. -/
def Obligations.StepOnUnknownOpcodeFails : Prop :=
  ∀ s : State, s.status = .running → s.ip.toNat < Config.memorySize →
    (s.mem.readByte s.ip.toNat).toNat = 0 ∨ 9 ≤ (s.mem.readByte s.ip.toNat).toNat →
    step s = .next { s with status := .failed .unknownOpcode }

/-- R202: a step of a running machine fails with ProgramCounterOutOfBounds exactly when the IP is outside memory or the width of
the known opcode there does not fit, and then nothing but the status has changed. -/
def Obligations.ProgramCounterErrorExactlyWhenFetchLeavesMemory : Prop :=
  ∀ s : State, s.status = .running →
    ((Config.memorySize ≤ s.ip.toNat ∨
        ∃ i : Instr, s.mem.readByte s.ip.toNat = i.opcode.toByte ∧ Config.memorySize < s.ip.toNat + i.width) →
      step s = .next { s with status := .failed .programCounterOutOfBounds }) ∧
    (∀ t, step s = .next t → t.status = .failed .programCounterOutOfBounds →
      Config.memorySize ≤ s.ip.toNat ∨
        ∃ i : Instr, s.mem.readByte s.ip.toNat = i.opcode.toByte ∧ Config.memorySize < s.ip.toNat + i.width)

/-- R91, R95, R217: every step ends in a next state, but for one stuck on a sink that never answers; none is refused. That a step
in a terminal state answers a next state, so that a stuck one was Running, is the spec's decision D4 (log entry 7). That the sink
is an oracle which may never answer is its decision D8 (log entry 1), and that such a step is a fault is deduced from R217 (log
entry 2). -/
def Obligations.StepEndsUnlessSinkNeverAnswers : Prop :=
  ∀ s : State, (∃ t, step s = .next t) ∨
    (step s = .fault .sinkNeverAnswers ∧ s.status = .running ∧ s.sink.answer = .never)

/-- R90, R153: a running machine halts in a step exactly when the opcode at the IP is halt. -/
def Obligations.HaltedExactlyByHaltOpcode : Prop :=
  ∀ s t : State, s.status = .running → step s = .next t →
    (t.status = .halted ↔ s.ip.toNat < Config.memorySize ∧ s.mem.readByte s.ip.toNat = 0x07)

/-- R87, R209, R210: what a failing step leaves. Memory and the registers 1 to 15 are as before it; the IP and the trace are as
before it for an error of the fetch, the IP is advanced for an error of the handler, and OutputFailed may have lengthened the
trace, by a prefix of its text that the sink chose (the spec's decision D8, log entries 1 and 2). HaltedTwice is never raised
(R208, the spec's decision D17, log entry 16). -/
def Obligations.FailedStepLeavesOnlyTheAdvance : Prop :=
  ∀ (s t : State) (k : ErrorKind), s.status = .running → step s = .next t → t.status = .failed k →
    t.mem = s.mem ∧ (∀ r : RegIx, r ≠ 0 → t.reg r = s.reg r) ∧
    match k with
    | .programCounterOutOfBounds | .unknownOpcode => t.ip = s.ip ∧ t.out = s.out ∧ t.sink = s.sink
    | .registerOutOfRange | .addressOutOfBounds | .invalidCodePoint =>
      (∃ i rest, decode (bytesAtIp s) = .instr i rest ∧ t.ip = s.ip + BitVec.ofNat 32 i.width) ∧ t.out = s.out ∧
        t.sink = s.sink
    | .outputFailed =>
      (∃ i rest, decode (bytesAtIp s) = .instr i rest ∧ t.ip = s.ip + BitVec.ofNat 32 i.width) ∧ s.out <+: t.out
    | .haltedTwice => False

/-- R31, R20, R208: the invariant of the machine is kept by every step from every state that meets it. That HaltedTwice is never
raised is the spec's decision D17 (log entry 16), that a terminal state steps to itself is its decision D4 (log entry 7), and the
canonical form of memory is the model's representation (log entry 3). -/
def Obligations.StepKeepsInvariant : Prop :=
  ∀ s t : State, Inv s → step s = .next t → Inv t

/-- R32, R31: the invariant holds after reset, and after every accepted construction. Reset as the construction from the empty
image is log entry 6, the construction's keeping of the sink log entry 5. The invariant's canonical form of memory is the model's
(log entry 3), and its exclusion of HaltedTwice the spec's decision D17 (log entry 16). -/
def Obligations.ResetAndLoadMeetInvariant : Prop :=
  Inv State.reset ∧ ∀ (img : List Byte) (s t : State), load img s = some t → Inv t

/-- R30, R216, R80: a step only appends to the output trace, at most 11 bytes, and only the output opcodes do. That a step in a
terminal state appends nothing, so that the machine was Running, is the spec's decision D4 (log entry 7). What the sink accepts is
its decision D8 (log entries 1 and 2). The bound 11 is that of the text of output-number (decision D10, log entry 9; its bytes
G3, log entry 4) and lies above the 4 bytes of UTF-8 (G2, log entry 4). -/
def Obligations.StepOnlyAppendsOutput : Prop :=
  ∀ s t : State, step s = .next t → ∃ bytes : List Byte, t.out = s.out ++ bytes ∧ bytes.length ≤ 11 ∧
    (bytes ≠ [] → s.status = .running ∧ (s.mem.readByte s.ip.toNat = 0x06 ∨ s.mem.readByte s.ip.toNat = 0x08))

/-- R40, R48, R80: no step but a store's changes memory. That a step in a terminal state changes nothing, so that the machine was
Running, is the spec's decision D4 (log entry 7). -/
def Obligations.OnlyStoreChangesMemory : Prop :=
  ∀ s t : State, step s = .next t → t.mem ≠ s.mem → s.status = .running ∧ s.mem.readByte s.ip.toNat = 0x02

/-- R95: besides the IP, a step writes at most one register. That a step in a terminal state writes none is the spec's decision D4
(log entry 7). -/
def Obligations.StepWritesAtMostOneRegister : Prop :=
  ∀ s t : State, step s = .next t → ∃ a : RegIx, ∀ r : RegIx, r ≠ 0 → r ≠ a → t.reg r = s.reg r

/-- R30: no instruction reads the output trace back. Two machines that differ only in it take the same step, and append the same
bytes. That a step in a terminal state appends nothing is the spec's decision D4 (log entry 7), and that the sink's answer does not
depend on the trace is the model's form of the oracle of decision D8 (log entry 1). -/
def Obligations.OutputTraceIsNeverReadBack : Prop :=
  ∀ (s t : State) (o : List Byte), step s = .next t →
    ∃ (t' : State) (bytes : List Byte), step { s with out := o } = .next t' ∧ t.out = s.out ++ bytes ∧ t'.out = o ++ bytes ∧
      t'.regs = t.regs ∧ t'.mem = t.mem ∧ t'.status = t.status ∧ t'.sink = t.sink

/-! ## Registers and memory -/

/-- R23: the bank's write accessor. -/
def Obligations.SetRegisterWritesOneOrFails : Prop :=
  ∀ (s : State) (r : Byte) (v : Word),
    (r.toNat ≤ 15 → ∃ (t : State) (i : RegIx), s.setRegister r v = .ok t ∧ i.val = r.toNat ∧ t.reg i = v ∧
      (∀ j : RegIx, j ≠ i → t.reg j = s.reg j) ∧ OnlyRegsDiffer s t) ∧
    (15 < r.toNat → s.setRegister r v = .error .registerOutOfRange)

/-- R43: the word write, and the read after it. The premise is the part of the invariant that memory is canonical. That the bound
is on the unbounded sum, so that 0xFFFFFFFC to 0xFFFFFFFF fail too, is the spec's decision D7 (log entry 15). -/
def Obligations.WordWriteIsLittleEndianAndReadsBack : Prop :=
  ∀ (m : Memory) (addr v : Word), m.wf = true →
    (addr.toNat + 4 ≤ Config.memorySize → ∃ m', m.writeWord addr v = .ok m' ∧ m'.readWord addr = .ok v ∧
      ∀ x : Nat, m'.readByte x =
        if addr.toNat ≤ x ∧ x < addr.toNat + 4 then BitVec.ofNat 8 (v.toNat / 256 ^ (x - addr.toNat)) else m.readByte x) ∧
    (Config.memorySize < addr.toNat + 4 → m.writeWord addr v = .error .addressOutOfBounds)

/-- R42: the word read. That the bound is on the unbounded sum, so that 0xFFFFFFFC to 0xFFFFFFFF fail too, is the spec's decision
D7 (log entry 15). -/
def Obligations.WordReadIsLittleEndian : Prop :=
  ∀ (m : Memory) (addr : Word),
    (addr.toNat + 4 ≤ Config.memorySize → ∃ v, m.readWord addr = .ok v ∧
      v.toNat = (m.readByte addr.toNat).toNat + 256 * (m.readByte (addr.toNat + 1)).toNat +
        256 ^ 2 * (m.readByte (addr.toNat + 2)).toNat + 256 ^ 3 * (m.readByte (addr.toNat + 3)).toNat) ∧
    (Config.memorySize < addr.toNat + 4 → m.readWord addr = .error .addressOutOfBounds)

/-! ## The instructions -/

/-- R86, R62, R203: an instruction with a register operand of 16 or more fails with only the advance made, and one without never
raises RegisterOutOfRange. That move-if checks operands it would not use is the spec's decision D6 (log entry 8). -/
def Obligations.RegisterOutOfRangeExactlyWhenIllFormed : Prop :=
  (∀ (i : Instr) (s : State), i.wellFormed = false → FailsAfterAdvance .registerOutOfRange i.width s (exec i s)) ∧
  (∀ (i : Instr) (s t : State), i.wellFormed = true → s.status ≠ .failed .registerOutOfRange → exec i s = .next t →
    t.status ≠ .failed .registerOutOfRange)

/-- R100 for operands that name registers: the move on a nonzero condition, and nothing but the advance on a zero one. -/
def Obligations.MoveIfMovesOnNonzeroCondition : Prop :=
  ∀ (a b c : RegIx) (s : State), ∃ t, exec (.moveIf (regByte a) (regByte b) (regByte c)) s = .next t ∧
    (∀ r : RegIx, t.reg r =
      if operandValue 4 s c ≠ 0 ∧ r = a then operandValue 4 s b else operandValue 4 s r) ∧ OnlyRegsDiffer s t

/-- R101: store. The address is the one the handler computes, after the advance. That the bound is on the unbounded sum, so that
0xFFFFFFFC to 0xFFFFFFFF fail too, is the spec's decision D7 (log entry 15). -/
def Obligations.StoreWritesWordAtRegisterA : Prop :=
  (∀ a b : Byte, encode (.store a b) = [0x02, a, b]) ∧
  (∀ (a b : Byte) (s : State), 15 < a.toNat ∨ 15 < b.toNat → FailsAfterAdvance .registerOutOfRange 3 s (exec (.store a b) s)) ∧
  (∀ (a b : RegIx) (s : State), s.mem.wf = true → ((s.advanceIp 3).reg a).toNat + 4 ≤ Config.memorySize →
    ∃ t, exec (.store (regByte a) (regByte b)) s = .next t ∧ (∀ r : RegIx, t.reg r = operandValue 3 s r) ∧
      (∀ x : Nat, t.mem.readByte x =
        if ((s.advanceIp 3).reg a).toNat ≤ x ∧ x < ((s.advanceIp 3).reg a).toNat + 4
        then BitVec.ofNat 8 (((s.advanceIp 3).reg b).toNat / 256 ^ (x - ((s.advanceIp 3).reg a).toNat))
        else s.mem.readByte x) ∧
      t.status = s.status ∧ t.out = s.out ∧ t.sink = s.sink) ∧
  (∀ (a b : RegIx) (s : State), Config.memorySize < ((s.advanceIp 3).reg a).toNat + 4 →
    FailsAfterAdvance .addressOutOfBounds 3 s (exec (.store (regByte a) (regByte b)) s))

/-- R102: load. That the bound is on the unbounded sum, so that 0xFFFFFFFC to 0xFFFFFFFF fail too, is the spec's decision D7 (log
entry 15). -/
def Obligations.LoadReadsWordAtRegisterB : Prop :=
  (∀ a b : Byte, encode (.load a b) = [0x03, a, b]) ∧
  (∀ (a b : Byte) (s : State), 15 < a.toNat ∨ 15 < b.toNat → FailsAfterAdvance .registerOutOfRange 3 s (exec (.load a b) s)) ∧
  (∀ (a b : RegIx) (s : State), (operandValue 3 s b).toNat + 4 ≤ Config.memorySize →
    ∃ t, exec (.load (regByte a) (regByte b)) s = .next t ∧
      (t.reg a).toNat = (s.mem.readByte (operandValue 3 s b).toNat).toNat +
        256 * (s.mem.readByte ((operandValue 3 s b).toNat + 1)).toNat +
        256 ^ 2 * (s.mem.readByte ((operandValue 3 s b).toNat + 2)).toNat +
        256 ^ 3 * (s.mem.readByte ((operandValue 3 s b).toNat + 3)).toNat ∧
      (∀ r : RegIx, r ≠ a → t.reg r = operandValue 3 s r) ∧ OnlyRegsDiffer s t) ∧
  (∀ (a b : RegIx) (s : State), Config.memorySize < (operandValue 3 s b).toNat + 4 →
    FailsAfterAdvance .addressOutOfBounds 3 s (exec (.load (regByte a) (regByte b)) s))

/-- R103: load-immediate. The immediate is the 16-bit two's-complement value of `(H << 8) | L`. -/
def Obligations.LoadImmediateSignExtends : Prop :=
  (∀ a l h : Byte, decode [0x04, a, l, h] = .instr (.loadImmediate a (BitVec.ofNat 16 (256 * h.toNat + l.toNat))) []) ∧
  (∀ (a : Byte) (imm : BitVec 16) (s : State), 15 < a.toNat →
    FailsAfterAdvance .registerOutOfRange 4 s (exec (.loadImmediate a imm) s)) ∧
  (∀ (a : RegIx) (imm : BitVec 16) (s : State), ∃ t, exec (.loadImmediate (regByte a) imm) s = .next t ∧
    (t.reg a).toInt = imm.toInt ∧ (∀ r : RegIx, r ≠ a → t.reg r = operandValue 4 s r) ∧ OnlyRegsDiffer s t)

/-- R140: subtract, modulo 2^32. -/
def Obligations.SubtractWrapsModulo32Bits : Prop :=
  (∀ a b c : Byte, encode (.subtract a b c) = [0x05, a, b, c]) ∧
  (∀ (a b c : Byte) (s : State), 15 < a.toNat ∨ 15 < b.toNat ∨ 15 < c.toNat →
    FailsAfterAdvance .registerOutOfRange 4 s (exec (.subtract a b c) s)) ∧
  (∀ (a b c : RegIx) (s : State), ∃ t, exec (.subtract (regByte a) (regByte b) (regByte c)) s = .next t ∧
    ((t.reg a).toNat : Int) = ((operandValue 4 s b).toNat - (operandValue 4 s c).toNat : Int) % 2 ^ 32 ∧
    (∀ r : RegIx, r ≠ a → t.reg r = operandValue 4 s r) ∧ OnlyRegsDiffer s t)

/-- R150 with a sink that accepts the write (D8, log entry 1): a scalar value in the whole register (D9, log entry 9) is written
as UTF-8, with no change but the advance, the trace and the sink's next answer. The scalar values and the encoding are general
knowledge (G1, G2, log entry 4). -/
def Obligations.OutputCharWritesUtf8 : Prop :=
  ∀ (a : RegIx) (s : State), isScalar (operandValue 2 s a) = true → s.sink.answer = .ok →
    OutputsAfterAdvance (utf8 (operandValue 2 s a)) 2 s (exec (.outputChar (regByte a)) s)

/-- R205, R150: a value that is no scalar value fails before anything is written; the sink is not asked. That the whole 32-bit
register is the value tested, and not its low byte, is the spec's decision D9 (log entry 9). Which values are scalar values is
general knowledge (G1, log entry 4). -/
def Obligations.OutputCharRejectsNonScalar : Prop :=
  ∀ (a : RegIx) (s : State), isScalar (operandValue 2 s a) = false →
    FailsAfterAdvance .invalidCodePoint 2 s (exec (.outputChar (regByte a)) s)

/-- R153: halt. -/
def Obligations.HaltAdvancesAndHalts : Prop :=
  encode .halt = [0x07] ∧
  ∀ s : State, ∃ t, exec .halt s = .next t ∧ t.status = .halted ∧ (∀ r : RegIx, t.reg r = operandValue 1 s r) ∧
    t.mem = s.mem ∧ t.out = s.out ∧ t.sink = s.sink

/-- R154, R155 with a sink that accepts the write (D8, log entry 1): some bytes that read back as the register's signed value are
written, and they are the text `decimal` gives. The exact form of the text is the spec's decision D10 (log entry 9). The codes of
the minus sign and the digits, by which `decimal` writes and `readDecimal` reads, are general knowledge (G3, log entry 4). -/
def Obligations.OutputNumberWritesSignedDecimal : Prop :=
  ∀ (a : RegIx) (s : State), s.sink.answer = .ok →
    readDecimal (decimal (operandValue 2 s a).toInt) = some (operandValue 2 s a).toInt ∧
    OutputsAfterAdvance (decimal (operandValue 2 s a).toInt) 2 s (exec (.outputNumber (regByte a)) s)

/-- R207, R216: a failed write keeps the advance and the first `k` bytes; `k` is the sink's (D8, log entries 1 and 2). The text is
the UTF-8 of the whole register (D9, log entry 9; the scalar values and the encoding G1 and G2, log entry 4) or the decimal text
(D10, log entry 9; its character codes G3, log entry 4). -/
def Obligations.FailedWriteKeepsDeliveredBytes : Prop :=
  (∀ (a : RegIx) (s : State) (k : Nat), isScalar (operandValue 2 s a) = true → s.sink.answer = .fail k →
    OutputFailsAfterAdvance (utf8 (operandValue 2 s a)) k 2 s (exec (.outputChar (regByte a)) s)) ∧
  (∀ (a : RegIx) (s : State) (k : Nat), s.sink.answer = .fail k →
    OutputFailsAfterAdvance (decimal (operandValue 2 s a).toInt) k 2 s (exec (.outputNumber (regByte a)) s))

/-- R217: a write the sink never answers (the spec's decision D8, log entry 1) leaves the step stuck, which the model calls a fault
(log entry 2). That output-char asks the sink for a scalar value in the whole register is decision D9 (log entry 9), and which
values are scalar values is general knowledge (G1, log entry 4). -/
def Obligations.SilentSinkLeavesStepStuck : Prop :=
  (∀ (a : RegIx) (s : State), isScalar (operandValue 2 s a) = true → s.sink.answer = .never →
    exec (.outputChar (regByte a)) s = .fault .sinkNeverAnswers) ∧
  (∀ (a : RegIx) (s : State), s.sink.answer = .never →
    exec (.outputNumber (regByte a)) s = .fault .sinkNeverAnswers)

/-! ## The text of the output instructions -/

/-- R151 (general knowledge G1, log entry 4): the scalar values are the values Lean's `Char` admits. -/
def Obligations.ScalarValuesAreUnicodes : Prop :=
  ∀ v : Word, isScalar v = true ↔ v.toNat.isValidChar

/-- R152 (general knowledge G2, log entry 4): the bytes are those of the standard library's UTF-8 encoder, for every character. -/
def Obligations.Utf8MatchesStandardEncoder : Prop :=
  ∀ c : Char, utf8 (BitVec.ofNat 32 c.toNat) = (String.utf8EncodeChar c).map UInt8.toBitVec

/-- R155 (decision D10, log entry 9): 1 to 11 bytes, a minus sign exactly for a negative value, and no leading zero in the
digits but for the value 0 itself. The codes 0x2D of the minus sign and 0x30 of the digit 0 are general knowledge (G3, log
entry 4). -/
def Obligations.DecimalTextIsMinimal : Prop :=
  ∀ v : Word, 1 ≤ (decimal v.toInt).length ∧ (decimal v.toInt).length ≤ 11 ∧
    ((decimal v.toInt).head? = some 0x2D ↔ v.toInt < 0) ∧
    ((decimal v.toInt).head? = some 0x30 → decimal v.toInt = [0x30]) ∧
    (v.toInt < 0 → (decimal v.toInt)[1]? ≠ some 0x30)

/-! ## Control transfer and self-modification -/

/-- R25, R89: a jump to any immediate is no error when it is written; a target outside memory fails at the next fetch, with the
IP kept. -/
def Obligations.JumpTargetIsCheckedAtNextFetch : Prop :=
  ∀ (imm : BitVec 16) (s : State), s.status = .running → ∃ t, exec (pseudoJump imm) s = .next t ∧ t.status = .running ∧
    t.ip.toInt = imm.toInt ∧
    (Config.memorySize ≤ t.ip.toNat → step t = .next { t with status := .failed .programCounterOutOfBounds })

/-- R53, R248: a store over the next instruction is seen by the next fetch. With A = 0 the address is the next instruction's. -/
def Obligations.StoredInstructionRunsNext : Prop :=
  ∀ (b : RegIx) (s : State) (i : Instr) (rest : List Byte), s.status = .running → s.mem.wf = true →
    s.ip.toNat + 7 ≤ Config.memorySize →
    decode [byteOf (operandValue 3 s b) 0, byteOf (operandValue 3 s b) 1, byteOf (operandValue 3 s b) 2,
      byteOf (operandValue 3 s b) 3] = .instr i rest →
    ∃ t, exec (.store (regByte 0) (regByte b)) s = .next t ∧ step t = exec i t

/-- R69, the spec's own conveniences (D15, log entry 12): each pseudo-instruction does what it is named for, at any address where
it fits. -/
def Obligations.PseudoInstructionsDoWhatTheyName : Prop :=
  ∀ s : State, s.ip.toNat + 4 ≤ Config.memorySize →
    (∀ imm : BitVec 16, ∃ t, exec (pseudoJump imm) s = .next t ∧ t.ip.toInt = imm.toInt) ∧
    (∀ c d : RegIx, ∃ t, exec (pseudoJumpIfNonzero c d) s = .next t ∧
      t.ip = if operandValue 4 s c ≠ 0 then operandValue 4 s d else s.ip + 4) ∧
    (∀ a b : RegIx, ∃ t, exec (pseudoMove a b) s = .next t ∧ t.reg a = operandValue 4 s b) ∧
    (∀ a : RegIx, ∃ t, exec (pseudoLink a) s = .next t ∧ t.reg a = s.ip + 4) ∧
    (∀ a : RegIx, ∃ t, exec (pseudoClear a) s = .next t ∧ t.reg a = 0) ∧
    (∃ t, exec pseudoNop s = .next t ∧ (∀ r : RegIx, t.reg r = operandValue 4 s r) ∧ OnlyRegsDiffer s t)

/-- R96: the call idiom leaves the address after the jump in the link register and the callee's address in the IP, and the return
idiom jumps back there. -/
def Obligations.CallIdiomReturnsAfterTheJump : Prop :=
  ∀ (l k : RegIx) (target : BitVec 16) (s : State), l ≠ 0 → s.reg k = 0xFFFFFFFC →
    s.ip.toNat + 8 ≤ Config.memorySize →
    ∃ t u, exec (.subtract (regByte l) (regByte 0) (regByte k)) s = .next t ∧ exec (pseudoJump target) t = .next u ∧
      u.ip.toInt = target.toInt ∧ (u.reg l).toNat = s.ip.toNat + 8 ∧
      ∀ w : State, w.reg l = u.reg l → ∃ w', exec (.moveIf (regByte 0) (regByte l) (regByte l)) w = .next w' ∧ w'.ip.toNat = s.ip.toNat + 8

/-! ## Reset and the host's transactions -/

/-- R32, R242: the state after construction from an image. A block that held a machine is replaced whole (D18; the sink, which is
outside the block, is kept, log entry 5); the STATUS value is the spec's numbering (D3, log entry 10). -/
def Obligations.ConstructionCopiesImageAndZeroes : Prop :=
  ∀ (img : List Byte) (s : State), img.length ≤ Config.memorySize → ∃ t, load img s = some t ∧
    (∀ a : Nat, t.mem.readByte a = img.getD a 0) ∧ (∀ i : RegIx, t.reg i = 0) ∧ t.status = .running ∧ readStatus t = 0 ∧
    t.out = []

/-- R241: an image longer than memory is refused, as the spec's decision D5 has it (log entry 18). -/
def Obligations.OversizedImageIsRefused : Prop :=
  ∀ (img : List Byte) (s : State), Config.memorySize < img.length → load img s = none

/-- R32, R240: what reset leaves, which is the construction from the empty image (the model's choice for a reset with no image
given, log entry 6), and that its first step fails with UnknownOpcode. -/
def Obligations.ResetLeavesZeroesAndRuns : Prop :=
  (∀ i : RegIx, State.reset.reg i = 0) ∧ (∀ a : Nat, State.reset.mem.readByte a = 0) ∧ State.reset.status = .running ∧
    State.reset.out = [] ∧ step State.reset = .next { State.reset with status := .failed .unknownOpcode }

/-- R27 (the encoding is the spec's decision D3, log entry 10): the fields of STATUS, and that it tells every two statuses apart. -/
def Obligations.StatusWordTellsStatusesApart : Prop :=
  (∀ st : Status, (statusWord st).toNat % 4 = (match st with | .running => 0 | .halted => 1 | .failed _ => 2) ∧
    (statusWord st).toNat = (statusWord st).toNat % 4 + 16 * (match st with | .failed k => k.code | _ => 0)) ∧
  ∀ st st' : Status, statusWord st = statusWord st' → st = st'

/-- R93: a run that ends within some number of steps ends in the same terminal state whatever more steps are allowed, and every
state a run ends in is terminal. The bound on the steps is the model's (log entry 14), and that RUN in a terminal state answers at
once is the spec's decision D4 (log entry 7). -/
def Obligations.RunEndsInOneTerminalState : Prop :=
  ∀ (n k : Nat) (s t : State), runFor n s = some t → runFor (n + k) s = some t ∧ t.status ≠ .running

/-- R214, R215 (decision D11 for the ranges, log entry 11): the inspection reads give the state, within range and nowhere else. -/
def Obligations.InspectionReadsOnlyInRange : Prop :=
  ∀ s : State, (∀ i : RegIx, readReg i.val s = some (s.reg i)) ∧ (∀ i : Nat, 15 < i → readReg i s = none) ∧
    (∀ a : Nat, a ≤ 4095 → readMem a s = some (s.mem.readByte a)) ∧ (∀ a : Nat, 4095 < a → readMem a s = none)

/-- Log entry 6: the word the host places for the next fetch is the instruction the next step runs, wherever four bytes fit. -/
def Obligations.PlacedWordRunsNext : Prop :=
  ∀ (s : State) (nbits w : Nat) (i : Instr), s.mem.wf = true → s.ip.toNat + 4 ≤ Config.memorySize →
    decodeTableWord nbits w = some i → step (s.withFetchWord nbits w) = exec i (s.withFetchWord nbits w)
end

