-- ==== Sys2Proof/Laws/Decode.lean ====
section
/-! SUPPORT. The small lemmas of the decoder: the opcode map and its inverse, and the immediate's two bytes. -/

namespace Sys2Proof

@[simp] theorem Opcode.ofByte_toByte (op : Opcode) : Opcode.ofByte op.toByte = some op := by cases op <;> rfl

/-- A byte that names an opcode is that opcode's byte (R64). -/
theorem Opcode.eq_toByte_of_ofByte {b : Byte} {op : Opcode} (h : Opcode.ofByte b = some op) : b = op.toByte := by
  unfold Opcode.ofByte at h
  split at h
  case h_9 => cases h
  all_goals
    cases h
    exact BitVec.eq_of_toNat_eq ‹_›

/-- The immediate's low and high byte make up the immediate (R63). -/
@[simp] theorem immOfBytes_low_high (imm : BitVec 16) : immOfBytes (immLow imm) (immHigh imm) = imm := by
  ext i hi
  simp only [immOfBytes, immLow, immHigh]
  by_cases h : i < 8
  · simp [h, BitVec.getLsbD_eq_getElem hi]
  · simp [h, BitVec.getLsbD_eq_getElem hi, show i - 8 < 8 by omega, show 8 + (i - 8) = i by omega]

@[simp] theorem immLow_immOfBytes (l h : Byte) : immLow (immOfBytes l h) = l := by
  ext i hi
  simp [immOfBytes, immLow, hi, show i < 16 by omega]

@[simp] theorem immHigh_immOfBytes (l h : Byte) : immHigh (immOfBytes l h) = h := by
  ext i hi
  simp [immOfBytes, immHigh, show 8 + i < 16 by omega, BitVec.getLsbD_eq_getElem hi]

/-- The opcode of an assembled instruction is the opcode it was assembled from. -/
@[simp] theorem Opcode.opcode_assemble (op : Opcode) (b1 b2 b3 : Byte) : (op.assemble b1 b2 b3).opcode = op := by
  cases op <;> rfl

/-- Everything the decoder can answer to a string with a first byte (R65, R66). -/
theorem decode_cons_cases (b : Byte) (bs : List Byte) :
    (Opcode.ofByte b = none ∧ decode (b :: bs) = .unknownOpcode) ∨
    (∃ op, Opcode.ofByte b = some op ∧ bs.length + 1 < op.width ∧ decode (b :: bs) = .truncated) ∨
    (∃ op, Opcode.ofByte b = some op ∧ op.width ≤ bs.length + 1 ∧
      decode (b :: bs) = .instr (op.assemble (bs.getD 0 0) (bs.getD 1 0) (bs.getD 2 0)) (bs.drop (op.width - 1))) := by
  cases h : Opcode.ofByte b with
  | none => exact .inl ⟨rfl, by simp only [decode, h]⟩
  | some op =>
    by_cases hw : bs.length + 1 < op.width
    · exact .inr (.inl ⟨op, rfl, hw, by simp only [decode, h, if_pos hw]⟩)
    · exact .inr (.inr ⟨op, rfl, by omega, by simp only [decode, h, if_neg hw]⟩)

end Sys2Proof
end

