-- ==== Sys2Proof/Laws/Memory.lean ====
section
/-! SUPPORT. The laws of memory: what a byte reads as after a write, and that every memory operation keeps the canonical form. -/

namespace Sys2Proof.Machine

variable {m : Memory}

/-! ## The canonical form -/

theorem Memory.wfFrom_cons {lo a : Nat} {v : Byte} :
    Memory.wfFrom lo ((a, v) :: m) = true ↔
      lo ≤ a ∧ a < Config.memorySize ∧ v ≠ Memory.unlisted ∧ Memory.wfFrom (a + 1) m = true := by
  simp [Memory.wfFrom]

theorem Memory.wfFrom_mono {lo lo' : Nat} (h : lo' ≤ lo) (hm : Memory.wfFrom lo m = true) : Memory.wfFrom lo' m = true := by
  cases m with
  | nil => rfl
  | cons c m =>
    rw [Memory.wfFrom_cons] at hm ⊢
    exact ⟨by omega, hm.2⟩

/-- Below the first entry nothing is listed. -/
theorem Memory.readByte_of_lt {lo x : Nat} (hm : Memory.wfFrom lo m = true) (hx : x < lo) : m.readByte x = Memory.unlisted := by
  induction m generalizing lo with
  | nil => rfl
  | cons c m ih =>
    rw [Memory.wfFrom_cons] at hm
    simp only [Memory.readByte, if_neg (show ¬ c.1 = x by omega)]
    exact ih hm.2.2.2 (by omega)

theorem Memory.writeByte_wfFrom {lo x : Nat} {v : Byte} (hm : Memory.wfFrom lo m = true) (hlo : lo ≤ x)
    (hx : x < Config.memorySize) : Memory.wfFrom lo (m.writeByte x v) = true := by
  induction m generalizing lo with
  | nil =>
    by_cases hv : v = Memory.unlisted
    · simp [Memory.writeByte, hv, Memory.wfFrom]
    · simpa [Memory.writeByte, hv, Memory.wfFrom] using ⟨hlo, hx⟩
  | cons c m ih =>
    obtain ⟨a, w⟩ := c
    have hc := hm
    rw [Memory.wfFrom_cons] at hc
    obtain ⟨h1, h2, h3, h4⟩ := hc
    unfold Memory.writeByte
    split_ifs with hxa hv hxa' hv
    · exact hm
    · exact Memory.wfFrom_cons.2 ⟨hlo, hx, hv, Memory.wfFrom_cons.2 ⟨by omega, h2, h3, h4⟩⟩
    · exact Memory.wfFrom_mono (by omega) h4
    · exact Memory.wfFrom_cons.2 ⟨hlo, hx, hv, hxa' ▸ h4⟩
    · exact Memory.wfFrom_cons.2 ⟨h1, h2, h3, ih h4 (by omega)⟩

/-- A byte write keeps the canonical form. -/
theorem Memory.writeByte_wf {x : Nat} {v : Byte} (hm : m.wf = true) (hx : x < Config.memorySize) :
    (m.writeByte x v).wf = true := Memory.writeByte_wfFrom hm (Nat.zero_le _) hx

/-! ## Reading after a write -/

theorem Memory.readByte_writeByte_from {lo x y : Nat} {v : Byte} (hm : Memory.wfFrom lo m = true) :
    (m.writeByte x v).readByte y = if y = x then v else m.readByte y := by
  induction m generalizing lo with
  | nil =>
    by_cases hv : v = Memory.unlisted
    · simp [Memory.writeByte, Memory.readByte, hv]
    · simp [Memory.writeByte, Memory.readByte, hv, eq_comm]
  | cons c m ih =>
    obtain ⟨a, w⟩ := c
    have hc := hm
    rw [Memory.wfFrom_cons] at hc
    obtain ⟨h1, h2, h3, h4⟩ := hc
    have hrec := ih h4
    unfold Memory.writeByte
    split_ifs with hxa hv hyx hyx hxa' hv hyx hyx
    · subst hyx
      rw [hv]
      exact Memory.readByte_of_lt (lo := a) (Memory.wfFrom_cons.2 ⟨le_refl _, h2, h3, h4⟩) hxa
    · rfl
    · simp [Memory.readByte, hyx]
    · simp [Memory.readByte, Ne.symm hyx]
    · subst hyx
      rw [hv]
      exact Memory.readByte_of_lt h4 (by omega)
    · simp only [Memory.readByte, if_neg (show ¬ a = y by omega)]
    · simp [Memory.readByte, hyx]
    · simp only [Memory.readByte, if_neg (show ¬ a = y by omega), if_neg (show ¬ x = y by omega)]
    · rename_i hyx
      subst hyx
      simpa [Memory.readByte, show ¬ a = y by omega] using hrec
    · rename_i hyx
      by_cases hay : a = y
      · simp [Memory.readByte, hay]
      · simpa [Memory.readByte, hay, hyx] using hrec

/-- A byte reads as written at the address written, and as before everywhere else. -/
theorem Memory.readByte_writeByte {x y : Nat} {v : Byte} (hm : m.wf = true) :
    (m.writeByte x v).readByte y = if y = x then v else m.readByte y := Memory.readByte_writeByte_from hm

/-! ## Words, images and placed bytes -/

theorem wordFits_iff {addr : Word} : wordFits addr = true ↔ addr.toNat ≤ 4092 := by
  simp [wordFits, Config.memorySize]

/-- Everything `MemWrite` can do (R43). -/
theorem Memory.writeWord_cases (m : Memory) (addr v : Word) :
    (wordFits addr = true ∧
      m.writeWord addr v = .ok ((((m.writeByte addr.toNat (byteOf v 0)).writeByte (addr.toNat + 1) (byteOf v 1)).writeByte
        (addr.toNat + 2) (byteOf v 2)).writeByte (addr.toNat + 3) (byteOf v 3))) ∨
    (wordFits addr = false ∧ m.writeWord addr v = .error .addressOutOfBounds) := by
  cases h : wordFits addr <;> simp [Memory.writeWord, h]

/-- Everything `MemRead` can do (R42). -/
theorem Memory.readWord_cases (m : Memory) (addr : Word) :
    (wordFits addr = true ∧ m.readWord addr = .ok (wordOfBytes (m.readByte addr.toNat) (m.readByte (addr.toNat + 1))
      (m.readByte (addr.toNat + 2)) (m.readByte (addr.toNat + 3)))) ∨
    (wordFits addr = false ∧ m.readWord addr = .error .addressOutOfBounds) := by
  cases h : wordFits addr <;> simp [Memory.readWord, h]

/-- A word write keeps the canonical form. -/
theorem Memory.writeWord_wf {addr v : Word} {m' : Memory} (hm : m.wf = true) (h : m.writeWord addr v = .ok m') :
    m'.wf = true := by
  obtain ⟨hf, he⟩ | ⟨-, he⟩ := m.writeWord_cases addr v
  · rw [wordFits_iff] at hf
    rw [he] at h
    cases h
    refine Memory.writeByte_wf (Memory.writeByte_wf (Memory.writeByte_wf (Memory.writeByte_wf hm ?_) ?_) ?_) ?_ <;>
      simp only [Config.memorySize] <;> omega
  · rw [he] at h
    cases h

/-- Placing bytes keeps the canonical form: those outside memory are left out. -/
theorem Memory.writeBytes_wf {a : Nat} {bs : List Byte} (hm : m.wf = true) : (m.writeBytes a bs).wf = true := by
  induction bs generalizing m a with
  | nil => exact hm
  | cons b bs ih =>
    unfold Memory.writeBytes
    split_ifs with ha
    · exact ih (Memory.writeByte_wf hm ha)
    · exact ih hm

theorem Memory.ofImage_wfFrom {a : Nat} {img : List Byte} (h : a + img.length ≤ Config.memorySize) :
    Memory.wfFrom a (Memory.ofImage a img) = true := by
  induction img generalizing a with
  | nil => rfl
  | cons b bs ih =>
    simp only [List.length_cons] at h
    have hrec := ih (a := a + 1) (by omega)
    unfold Memory.ofImage
    split_ifs with hb
    · exact Memory.wfFrom_mono (by omega) hrec
    · exact Memory.wfFrom_cons.2 ⟨le_refl _, by omega, hb, hrec⟩

/-- The memory of an accepted image is canonical. -/
theorem load_wf {img : List Byte} {s t : State} (h : load img s = some t) : t.mem.wf = true := by
  unfold load at h
  split_ifs at h with hl
  cases h
  exact Memory.ofImage_wfFrom (by omega)

theorem Memory.wf_empty : Memory.wf [] = true := rfl

/-- `readBytes` reads as many bytes as asked for. -/
@[simp] theorem Memory.length_readBytes (m : Memory) (a n : Nat) : (m.readBytes a n).length = n := by
  induction n generalizing a with
  | zero => rfl
  | succ n ih => simp [Memory.readBytes, ih]

theorem Memory.getElem?_readBytes (m : Memory) (a n k : Nat) :
    (m.readBytes a n)[k]? = if k < n then some (m.readByte (a + k)) else none := by
  induction n generalizing a k with
  | zero => simp [Memory.readBytes]
  | succ n ih =>
    cases k with
    | zero => simp [Memory.readBytes]
    | succ k => simp [Memory.readBytes, ih, Nat.add_comm, Nat.add_left_comm]

/-! ## The bytes of a word -/

/-- Byte `k` of a word, as arithmetic (R41). -/
theorem byteOf_eq (v : Word) (k : Nat) : byteOf v k = BitVec.ofNat 8 (v.toNat / 256 ^ k) := by
  apply BitVec.eq_of_toNat_eq
  simp only [byteOf, BitVec.extractLsb'_toNat, BitVec.toNat_ofNat, Nat.shiftRight_eq_div_pow, Nat.pow_mul]

/-- The four bytes of a word make up the word (R41, R42). -/
theorem wordOfBytes_byteOf (v : Word) : wordOfBytes (byteOf v 0) (byteOf v 1) (byteOf v 2) (byteOf v 3) = v := by
  unfold wordOfBytes byteOf
  ext i hi
  by_cases h1 : i < 8
  · simp [h1, hi, show i < 16 by omega, show i < 24 by omega]
  by_cases h2 : i < 16
  · simp [h1, h2, hi, show i < 24 by omega, show i - 8 < 8 by omega, show 8 + (i - 8) = i by omega]
  by_cases h3 : i < 24
  · simp [h1, h2, h3, hi, show ¬ i - 8 < 8 by omega, show i - 16 < 8 by omega, show 16 + (i - 16) = i by omega]
  · simp [h1, h2, h3, hi, show ¬ i - 8 < 8 by omega, show ¬ i - 16 < 8 by omega, show i - 24 < 8 by omega,
      show 24 + (i - 24) = i by omega]

theorem or_shiftLeft_of_lt {x y i : Nat} (h : x < 2 ^ i) : x ||| y <<< i = y <<< i + x := by
  rw [Nat.or_comm, ← Nat.shiftLeft_add_eq_or_of_lt h]

/-- The word of four bytes, as a sum by their weights (R42). -/
theorem toNat_wordOfBytes (b0 b1 b2 b3 : Byte) :
    (wordOfBytes b0 b1 b2 b3).toNat = b0.toNat + 256 * b1.toNat + 256 ^ 2 * b2.toNat + 256 ^ 3 * b3.toNat := by
  have h0 := b0.isLt
  have h1 := b1.isLt
  have h2 := b2.isLt
  have h3 := b3.isLt
  have e1 : (b1.setWidth 32 <<< 8).toNat = b1.toNat <<< 8 := by simp [Nat.shiftLeft_eq]; omega
  have e2 : (b2.setWidth 32 <<< 16).toNat = b2.toNat <<< 16 := by simp [Nat.shiftLeft_eq]; omega
  have e3 : (b3.setWidth 32 <<< 24).toNat = b3.toNat <<< 24 := by simp [Nat.shiftLeft_eq]; omega
  have e0 : (b0.setWidth 32).toNat = b0.toNat := by simp; omega
  simp only [wordOfBytes, BitVec.toNat_or, e0, e1, e2, e3]
  rw [or_shiftLeft_of_lt (x := b0.toNat) (by omega), or_shiftLeft_of_lt (y := b2.toNat) (by rw [Nat.shiftLeft_eq]; omega),
    or_shiftLeft_of_lt (y := b3.toNat) (by simp only [Nat.shiftLeft_eq]; omega)]
  simp only [Nat.shiftLeft_eq]
  omega

end Sys2Proof.Machine
end

