-- ==== Sys2Proof/Laws/State.lean ====
section
/-! SUPPORT. The small lemmas of the state: one per field per update, so that no proof unfolds a record update, and what a
register reads after a write. -/

namespace Sys2Proof.Machine

variable (s : State)

/-! ## setReg -/

@[simp] theorem State.setReg_mem (i : RegIx) (v : Word) : (s.setReg i v).mem = s.mem := rfl
@[simp] theorem State.setReg_status (i : RegIx) (v : Word) : (s.setReg i v).status = s.status := rfl
@[simp] theorem State.setReg_out (i : RegIx) (v : Word) : (s.setReg i v).out = s.out := rfl
@[simp] theorem State.setReg_sink (i : RegIx) (v : Word) : (s.setReg i v).sink = s.sink := rfl

/-- "`set_register(r, v)` followed by a read of `r` returns exactly `v`", and no other register changes (R23). -/
theorem State.reg_setReg (i j : RegIx) (v : Word) : (s.setReg i v).reg j = if j = i then v else s.reg j := by
  simp only [State.setReg, State.reg, Vector.getElem_set, Fin.ext_iff, eq_comm]

@[simp] theorem State.reg_setReg_self (i : RegIx) (v : Word) : (s.setReg i v).reg i = v := by simp [State.reg_setReg]

theorem State.reg_setReg_ne {i j : RegIx} (h : j ≠ i) (v : Word) : (s.setReg i v).reg j = s.reg j := by
  simp [State.reg_setReg, h]

theorem State.ip_eq_reg : s.ip = s.reg Config.ipReg := rfl

/-! ## advanceIp -/

@[simp] theorem State.advanceIp_mem (n : Nat) : (s.advanceIp n).mem = s.mem := rfl
@[simp] theorem State.advanceIp_status (n : Nat) : (s.advanceIp n).status = s.status := rfl
@[simp] theorem State.advanceIp_out (n : Nat) : (s.advanceIp n).out = s.out := rfl
@[simp] theorem State.advanceIp_sink (n : Nat) : (s.advanceIp n).sink = s.sink := rfl

@[simp] theorem State.ip_advanceIp (n : Nat) : (s.advanceIp n).ip = s.ip + BitVec.ofNat 32 n :=
  s.reg_setReg_self _ _

/-- The advance moves register 0 and nothing else (R24). -/
theorem State.reg_advanceIp (n : Nat) (j : RegIx) :
    (s.advanceIp n).reg j = if j = Config.ipReg then s.ip + BitVec.ofNat 32 n else s.reg j := s.reg_setReg _ _ _

theorem State.reg_advanceIp_ne {j : RegIx} (h : j ≠ Config.ipReg) (n : Nat) : (s.advanceIp n).reg j = s.reg j :=
  s.reg_setReg_ne h _

/-! ## setMem -/

@[simp] theorem State.setMem_mem (m : Memory) : (s.setMem m).mem = m := rfl
@[simp] theorem State.setMem_status (m : Memory) : (s.setMem m).status = s.status := rfl
@[simp] theorem State.setMem_out (m : Memory) : (s.setMem m).out = s.out := rfl
@[simp] theorem State.setMem_sink (m : Memory) : (s.setMem m).sink = s.sink := rfl
@[simp] theorem State.reg_setMem (m : Memory) (i : RegIx) : (s.setMem m).reg i = s.reg i := rfl
@[simp] theorem State.ip_setMem (m : Memory) : (s.setMem m).ip = s.ip := rfl

/-! ## setStatus -/

@[simp] theorem State.setStatus_mem (st : Status) : (s.setStatus st).mem = s.mem := rfl
@[simp] theorem State.setStatus_status (st : Status) : (s.setStatus st).status = st := rfl
@[simp] theorem State.setStatus_out (st : Status) : (s.setStatus st).out = s.out := rfl
@[simp] theorem State.setStatus_sink (st : Status) : (s.setStatus st).sink = s.sink := rfl
@[simp] theorem State.reg_setStatus (st : Status) (i : RegIx) : (s.setStatus st).reg i = s.reg i := rfl
@[simp] theorem State.ip_setStatus (st : Status) : (s.setStatus st).ip = s.ip := rfl

/-! ## deliver -/

@[simp] theorem State.deliver_mem (bs : List Byte) : (s.deliver bs).mem = s.mem := rfl
@[simp] theorem State.deliver_status (bs : List Byte) : (s.deliver bs).status = s.status := rfl
@[simp] theorem State.deliver_out (bs : List Byte) : (s.deliver bs).out = s.out ++ bs := rfl
@[simp] theorem State.deliver_sink (bs : List Byte) : (s.deliver bs).sink = s.sink.advance := rfl
@[simp] theorem State.reg_deliver (bs : List Byte) (i : RegIx) : (s.deliver bs).reg i = s.reg i := rfl
@[simp] theorem State.ip_deliver (bs : List Byte) : (s.deliver bs).ip = s.ip := rfl

/-! ## State.reset -/

@[simp] theorem State.reg_reset (i : RegIx) : State.reset.reg i = 0 := by simp [State.reset, State.reg]
@[simp] theorem State.reset_mem : State.reset.mem = [] := rfl

/-- Two states with the same fields are equal, the registers compared one by one. -/
theorem State.eq_of_fields {s t : State} (hr : ∀ i, s.reg i = t.reg i) (hm : s.mem = t.mem) (hs : s.status = t.status)
    (ho : s.out = t.out) (hk : s.sink = t.sink) : s = t := by
  obtain ⟨sr, _, _, _, _⟩ := s
  obtain ⟨tr, _, _, _, _⟩ := t
  have : sr = tr := Vector.ext fun i hi => hr ⟨i, hi⟩
  simp_all

end Sys2Proof.Machine
end

