-- ==== Sys2Proof/Laws/Operands.lean ====
section
/-! SUPPORT. What the shared operations can answer: validation, `raise` and `Out`. A proof about a meaning cites these and does
not unfold the operation. -/

namespace Sys2Proof.Machine

@[simp] theorem toNat_regByte (i : RegIx) : (regByte i).toNat = i.val := by
  simp only [regByte, BitVec.toNat_ofNat]
  have := i.isLt
  simp only [Config.numRegs] at this
  omega

/-- A byte that names a register names that register. -/
@[simp] theorem regIndex_regByte (i : RegIx) : regIndex? (regByte i) = some i := by
  simp [regIndex?]

/-- A byte of 16 or more names no register, and every other byte names one (R23, R62). -/
theorem regIndex_eq_none_iff {r : Byte} : regIndex? r = none ↔ regByteOk r = false := by
  simp [regIndex?, regByteOk]

theorem regByteOk_iff {r : Byte} : regByteOk r = true ↔ ∃ i, regIndex? r = some i := by
  rw [← Option.ne_none_iff_exists', Ne, regIndex_eq_none_iff, Bool.not_eq_false]

/-- A byte that names register `i` is the byte of `i`. -/
theorem eq_regByte_of_regIndex {r : Byte} {i : RegIx} (h : regIndex? r = some i) : r = regByte i := by
  unfold regIndex? at h
  split at h
  · cases h
    exact BitVec.eq_of_toNat_eq (by simp)
  · cases h

variable (s : State)

@[simp] theorem State.withReg_regByte (i : RegIx) (k : RegIx → Host.Outcome State Fault Refusal) :
    s.withReg (regByte i) k = k i := by
  simp [State.withReg]

@[simp] theorem State.withRegs2_regByte (i j : RegIx) (k : RegIx → RegIx → Host.Outcome State Fault Refusal) :
    s.withRegs2 (regByte i) (regByte j) k = k i j := by
  simp [State.withRegs2]

@[simp] theorem State.withRegs3_regByte (i j l : RegIx) (k : RegIx → RegIx → RegIx → Host.Outcome State Fault Refusal) :
    s.withRegs3 (regByte i) (regByte j) (regByte l) k = k i j l := by
  simp [State.withRegs3]

/-- Everything the validation of one operand can do (R86). -/
theorem State.withReg_cases (a : Byte) (k : RegIx → Host.Outcome State Fault Refusal) :
    (∃ i, regIndex? a = some i ∧ s.withReg a k = k i) ∨
    (regByteOk a = false ∧ s.withReg a k = .next (s.setStatus (.failed .registerOutOfRange))) := by
  cases h : regIndex? a with
  | some i => exact .inl ⟨i, rfl, by simp [State.withReg, h]⟩
  | none => exact .inr ⟨regIndex_eq_none_iff.1 h, by simp [State.withReg, h, State.raise]⟩

/-- Everything the validation of two operands can do (R86). -/
theorem State.withRegs2_cases (a b : Byte) (k : RegIx → RegIx → Host.Outcome State Fault Refusal) :
    (∃ i j, regIndex? a = some i ∧ regIndex? b = some j ∧ s.withRegs2 a b k = k i j) ∨
    ((regByteOk a && regByteOk b) = false ∧ s.withRegs2 a b k = .next (s.setStatus (.failed .registerOutOfRange))) := by
  unfold State.withRegs2
  obtain ⟨i, hi, h⟩ | ⟨ha, h⟩ := s.withReg_cases a fun i => s.withReg b fun j => k i j
  · obtain ⟨j, hj, h'⟩ | ⟨hb, h'⟩ := s.withReg_cases b fun j => k i j
    · exact .inl ⟨i, j, hi, hj, h.trans h'⟩
    · exact .inr ⟨by simp [hb], h.trans h'⟩
  · exact .inr ⟨by simp [ha], h⟩

/-- Everything the validation of three operands can do (R86). -/
theorem State.withRegs3_cases (a b c : Byte) (k : RegIx → RegIx → RegIx → Host.Outcome State Fault Refusal) :
    (∃ i j l, regIndex? a = some i ∧ regIndex? b = some j ∧ regIndex? c = some l ∧ s.withRegs3 a b c k = k i j l) ∨
    ((regByteOk a && (regByteOk b && regByteOk c)) = false ∧
      s.withRegs3 a b c k = .next (s.setStatus (.failed .registerOutOfRange))) := by
  obtain ⟨i, hi, h⟩ | ⟨ha, h⟩ := s.withReg_cases a fun i => s.withRegs2 b c fun j l => k i j l
  · obtain ⟨j, l, hj, hl, h'⟩ | ⟨hb, h'⟩ := s.withRegs2_cases b c fun j l => k i j l
    · exact .inl ⟨i, j, l, hi, hj, hl, h.trans h'⟩
    · exact .inr ⟨by simp [hb], h.trans h'⟩
  · exact .inr ⟨by simp [ha], h⟩

/-- Everything `Out` can do (R216, R217). -/
theorem State.output_cases (bs : List Byte) :
    (s.sink.answer = .ok ∧ s.output bs = .next (s.deliver bs)) ∨
    (∃ k, s.sink.answer = .fail k ∧ s.output bs = .next ((s.deliver (bs.take k)).setStatus (.failed .outputFailed))) ∨
    (s.sink.answer = .never ∧ s.output bs = .fault .sinkNeverAnswers) := by
  unfold State.output State.raise
  cases s.sink.answer <;> simp

end Sys2Proof.Machine
end

