-- ==== Sys2Proof/Laws/Step.lean ====
section
/-! SUPPORT. What fetch and step can answer, said once: every later proof about a step takes its cases from here. -/

namespace Sys2Proof.Machine

variable (s : State)

/-- Everything a fetch can answer, in the order of the checks (R81 to R84). -/
theorem fetch_cases :
    (Config.memorySize ≤ s.ip.toNat ∧ fetch s = .error .programCounterOutOfBounds) ∨
    (s.ip.toNat < Config.memorySize ∧ Opcode.ofByte (s.mem.readByte s.ip.toNat) = none ∧ fetch s = .error .unknownOpcode) ∨
    (∃ op, s.ip.toNat < Config.memorySize ∧ Opcode.ofByte (s.mem.readByte s.ip.toNat) = some op ∧
      Config.memorySize < s.ip.toNat + op.width ∧ fetch s = .error .programCounterOutOfBounds) ∨
    (∃ op, s.ip.toNat < Config.memorySize ∧ Opcode.ofByte (s.mem.readByte s.ip.toNat) = some op ∧
      s.ip.toNat + op.width ≤ Config.memorySize ∧
      fetch s = .ok (op.assemble (s.mem.readByte (s.ip.toNat + 1)) (s.mem.readByte (s.ip.toNat + 2))
        (s.mem.readByte (s.ip.toNat + 3)))) := by
  unfold fetch
  by_cases h1 : Config.memorySize ≤ s.ip.toNat
  · exact .inl ⟨h1, if_pos h1⟩
  · have h1' : s.ip.toNat < Config.memorySize := by omega
    cases h2 : Opcode.ofByte (s.mem.readByte s.ip.toNat) with
    | none => exact .inr (.inl ⟨h1', rfl, by simp only [if_neg h1, h2]⟩)
    | some op =>
      by_cases h3 : Config.memorySize < s.ip.toNat + op.width
      · exact .inr (.inr (.inl ⟨op, h1', rfl, h3, by simp only [if_neg h1, h2, if_pos h3]⟩))
      · exact .inr (.inr (.inr ⟨op, h1', rfl, by omega, by simp only [if_neg h1, h2, if_neg h3]⟩))

/-- Everything a step can do (R80, R91). -/
theorem step_cases :
    (s.status ≠ .running ∧ step s = .next s) ∨
    (∃ k, s.status = .running ∧ fetch s = .error k ∧ step s = .next (s.setStatus (.failed k))) ∨
    (∃ i, s.status = .running ∧ fetch s = .ok i ∧ step s = exec i s) := by
  unfold step
  cases h : s.status with
  | running =>
    cases hf : fetch s with
    | error k => exact .inr (.inl ⟨k, rfl, rfl, rfl⟩)
    | ok i => exact .inr (.inr ⟨i, rfl, rfl, rfl⟩)
  | halted => exact .inl ⟨by simp, rfl⟩
  | failed k => exact .inl ⟨by simp, rfl⟩

/-- A placed instruction leaves every register, the trace and the sink alone. -/
theorem State.withFetchWord_regs (nbits w : Nat) (i : RegIx) : (s.withFetchWord nbits w).reg i = s.reg i := rfl

@[simp] theorem State.withFetchWord_status (nbits w : Nat) : (s.withFetchWord nbits w).status = .running := rfl

end Sys2Proof.Machine
end

