-- ==== Sys2Proof/Laws/Exec.lean ====
section
/-! SUPPORT. What a handler can do, said once for all eight: every proof about all instructions takes its cases from here. -/

namespace Sys2Proof.Machine

/-- The errors a handler raises before it has any effect but the advance (spec/60_exceptions.md R209, checkpoints 5 and 6). -/
def ErrorKind.ofHandler : ErrorKind → Bool
  | .registerOutOfRange => true
  | .addressOutOfBounds => true
  | .invalidCodePoint => true
  | _ => false

/-- Everything a handler can do after its advance by the width of its instruction: raise one of its errors; write at most one
register; store a word; halt; or write to the sink. -/
theorem exec_cases (i : Instr) (s : State) :
    (∃ k, k.ofHandler = true ∧ exec i s = .next ((s.advanceIp i.width).setStatus (.failed k))) ∨
    (i.opcode ≠ .halt ∧ exec i s = .next (s.advanceIp i.width)) ∨
    (i.opcode ≠ .halt ∧ ∃ a v, exec i s = .next ((s.advanceIp i.width).setReg a v)) ∨
    (i.opcode = .store ∧ ∃ addr v m, s.mem.writeWord addr v = .ok m ∧ exec i s = .next ((s.advanceIp i.width).setMem m)) ∨
    (i = .halt ∧ exec i s = .next ((s.advanceIp i.width).setStatus .halted)) ∨
    ((∃ a, i = .outputChar a ∧ ∃ v, isScalar v = true ∧ exec i s = (s.advanceIp i.width).output (utf8 v)) ∨
      (∃ a, i = .outputNumber a ∧ ∃ v : Word, exec i s = (s.advanceIp i.width).output (decimal v.toInt))) := by
  have failed {w : Nat} {o : Host.Outcome State Fault Refusal} {k : ErrorKind}
      (h : o = .next ((s.advanceIp w).setStatus (.failed k))) (hk : k.ofHandler = true) :
      ∃ k, k.ofHandler = true ∧ o = .next ((s.advanceIp w).setStatus (.failed k)) := ⟨k, hk, h⟩
  cases i with
  | moveIf a b c =>
    obtain ⟨i, j, l, -, -, -, h⟩ | ⟨-, h⟩ := (s.advanceIp 4).withRegs3_cases a b c fun a b c =>
      .next (if (s.advanceIp 4).reg c ≠ 0 then (s.advanceIp 4).setReg a ((s.advanceIp 4).reg b) else s.advanceIp 4)
    · by_cases hc : (s.advanceIp 4).reg l ≠ 0
      · exact .inr (.inr (.inl ⟨by simp [Instr.opcode], i, _, h.trans (by rw [if_pos hc]; rfl)⟩))
      · exact .inr (.inl ⟨by simp [Instr.opcode], h.trans (by rw [if_neg hc]; rfl)⟩)
    · exact .inl (failed h rfl)
  | store a b =>
    obtain ⟨i, j, -, -, h⟩ | ⟨-, h⟩ := (s.advanceIp 3).withRegs2_cases a b fun a b =>
      match (s.advanceIp 3).mem.writeWord ((s.advanceIp 3).reg a) ((s.advanceIp 3).reg b) with
      | .ok m => .next ((s.advanceIp 3).setMem m)
      | .error k => (s.advanceIp 3).raise k
    · obtain ⟨-, hw⟩ | ⟨-, hw⟩ := s.mem.writeWord_cases ((s.advanceIp 3).reg i) ((s.advanceIp 3).reg j)
      · exact .inr (.inr (.inr (.inl ⟨rfl, _, _, _, hw, h.trans (by rw [State.advanceIp_mem, hw]; rfl)⟩)))
      · exact .inl (failed (h.trans (by rw [State.advanceIp_mem, hw]; rfl)) rfl)
    · exact .inl (failed h rfl)
  | load a b =>
    obtain ⟨i, j, -, -, h⟩ | ⟨-, h⟩ := (s.advanceIp 3).withRegs2_cases a b fun a b =>
      match (s.advanceIp 3).mem.readWord ((s.advanceIp 3).reg b) with
      | .ok v => .next ((s.advanceIp 3).setReg a v)
      | .error k => (s.advanceIp 3).raise k
    · obtain ⟨-, hw⟩ | ⟨-, hw⟩ := s.mem.readWord_cases ((s.advanceIp 3).reg j)
      · exact .inr (.inr (.inl ⟨by simp [Instr.opcode], i, _, h.trans (by rw [State.advanceIp_mem, hw]; rfl)⟩))
      · exact .inl (failed (h.trans (by rw [State.advanceIp_mem, hw]; rfl)) rfl)
    · exact .inl (failed h rfl)
  | loadImmediate a imm =>
    obtain ⟨i, -, h⟩ | ⟨-, h⟩ := (s.advanceIp 4).withReg_cases a fun a => .next ((s.advanceIp 4).setReg a (immValue imm))
    · exact .inr (.inr (.inl ⟨by simp [Instr.opcode], i, _, h⟩))
    · exact .inl (failed h rfl)
  | subtract a b c =>
    obtain ⟨i, j, l, -, -, -, h⟩ | ⟨-, h⟩ := (s.advanceIp 4).withRegs3_cases a b c fun a b c =>
      .next ((s.advanceIp 4).setReg a ((s.advanceIp 4).reg b - (s.advanceIp 4).reg c))
    · exact .inr (.inr (.inl ⟨by simp [Instr.opcode], i, _, h⟩))
    · exact .inl (failed h rfl)
  | outputChar a =>
    obtain ⟨i, -, h⟩ | ⟨-, h⟩ := (s.advanceIp 2).withReg_cases a fun a =>
      if isScalar ((s.advanceIp 2).reg a) then (s.advanceIp 2).output (utf8 ((s.advanceIp 2).reg a))
      else (s.advanceIp 2).raise .invalidCodePoint
    · by_cases hs : isScalar ((s.advanceIp 2).reg i) = true
      · exact .inr (.inr (.inr (.inr (.inr (.inl ⟨a, rfl, _, hs, h.trans (by rw [if_pos hs]; rfl)⟩)))))
      · exact .inl (failed (h.trans (by rw [if_neg hs]; rfl)) rfl)
    · exact .inl (failed h rfl)
  | halt => exact .inr (.inr (.inr (.inr (.inl ⟨rfl, rfl⟩))))
  | outputNumber a =>
    obtain ⟨i, -, h⟩ | ⟨-, h⟩ := (s.advanceIp 2).withReg_cases a fun a =>
      (s.advanceIp 2).output (decimal ((s.advanceIp 2).reg a).toInt)
    · exact .inr (.inr (.inr (.inr (.inr (.inr ⟨a, rfl, _, h⟩)))))
    · exact .inl (failed h rfl)

end Sys2Proof.Machine
end

