-- ==== Sys2Proof/Laws/PerInstr.lean ====
section
/-! SUPPORT. A fact about every instruction as syntax, one lemma per constructor: its encoding has the length its opcode gives,
1 to 4 bytes, and begins with its opcode byte (spec/30_encoding.md R60, R61, R64). -/

namespace Sys2Proof.Laws.EncodingShape

/-- The encoding is the opcode byte and `width - 1` operand bytes, and the opcode byte names the opcode. -/
def Statement (i : Instr) : Prop :=
  (encode i).length = i.width ∧ 1 ≤ i.width ∧ i.width ≤ Config.maxWidth ∧ (encode i).head? = some i.opcode.toByte ∧
    Opcode.ofByte i.opcode.toByte = some i.opcode

theorem width_bounds (op : Opcode) : 1 ≤ op.width ∧ op.width ≤ Config.maxWidth := by cases op <;> decide

theorem moveIf (a b c : Byte) : Statement (.moveIf a b c) := ⟨rfl, (width_bounds _).1, (width_bounds _).2, rfl, rfl⟩
theorem store (a b : Byte) : Statement (.store a b) := ⟨rfl, (width_bounds _).1, (width_bounds _).2, rfl, rfl⟩
theorem load (a b : Byte) : Statement (.load a b) := ⟨rfl, (width_bounds _).1, (width_bounds _).2, rfl, rfl⟩
theorem loadImmediate (a : Byte) (imm : BitVec 16) : Statement (.loadImmediate a imm) :=
  ⟨rfl, (width_bounds _).1, (width_bounds _).2, rfl, rfl⟩
theorem subtract (a b c : Byte) : Statement (.subtract a b c) := ⟨rfl, (width_bounds _).1, (width_bounds _).2, rfl, rfl⟩
theorem outputChar (a : Byte) : Statement (.outputChar a) := ⟨rfl, (width_bounds _).1, (width_bounds _).2, rfl, rfl⟩
theorem halt : Statement .halt := ⟨rfl, (width_bounds _).1, (width_bounds _).2, rfl, rfl⟩
theorem outputNumber (a : Byte) : Statement (.outputNumber a) := ⟨rfl, (width_bounds _).1, (width_bounds _).2, rfl, rfl⟩

end Sys2Proof.Laws.EncodingShape
end

