-- ==== Sys2Proof/Laws/Safety.lean ====
section
/-! SUPPORT. The small lemmas of the terms the statements are written in. -/

namespace Sys2Proof.Machine

/-- What a register reads as after the advance is its operand value (R88). -/
theorem reg_advanceIp_eq_operandValue (w : Nat) (s : State) (r : RegIx) : (s.advanceIp w).reg r = operandValue w s r :=
  s.reg_advanceIp w r

/-- The error outcome that every handler's early checks end in. -/
theorem failsAfterAdvance_setStatus (kind : ErrorKind) (w : Nat) (s : State) :
    FailsAfterAdvance kind w s (.next ((s.advanceIp w).setStatus (.failed kind))) :=
  ⟨_, rfl, fun r => reg_advanceIp_eq_operandValue w s r, rfl, rfl, rfl, rfl⟩

/-- Inside memory, what a fetch can read begins with the opcode byte. -/
theorem bytesAtIp_eq_cons {s : State} (h : s.ip.toNat < Config.memorySize) :
    bytesAtIp s = s.mem.readByte s.ip.toNat ::
      s.mem.readBytes (s.ip.toNat + 1) (Config.memorySize - (s.ip.toNat + 1)) := by
  rw [bytesAtIp, show Config.memorySize - s.ip.toNat = Config.memorySize - (s.ip.toNat + 1) + 1 by omega]
  rfl

/-- At or past the end of memory a fetch can read nothing. -/
theorem bytesAtIp_eq_nil {s : State} (h : Config.memorySize ≤ s.ip.toNat) : bytesAtIp s = [] := by
  rw [bytesAtIp, show Config.memorySize - s.ip.toNat = 0 by omega]
  rfl

end Sys2Proof.Machine
end

