-- ==== Sys2Proof/Laws/Text.lean ====
section
/-! SUPPORT. The small lemmas of the output text: lengths, and what a digit string reads as. -/

namespace Sys2Proof.Machine

/-- A code point takes 1 to 4 bytes (R152). -/
theorem length_utf8 (v : Word) : 1 ≤ (utf8 v).length ∧ (utf8 v).length ≤ 4 := by
  unfold utf8
  split_ifs <;> simp

theorem length_digitsUpTo_le (fuel m : Nat) : (digitsUpTo fuel m).length ≤ fuel := by
  induction fuel generalizing m with
  | zero => simp [digitsUpTo]
  | succ n ih =>
    unfold digitsUpTo
    split_ifs with h
    · simp
    · have := ih (m / 10)
      simp only [List.length_append, List.length_singleton]
      omega

theorem length_decimal_le (n : Int) : (decimal n).length ≤ 11 := by
  have := length_digitsUpTo_le 10 n.natAbs
  unfold decimal digits
  split_ifs
  · simp only [List.length_cons]
    omega
  · omega

theorem toNat_digitByte {d : Nat} (h : d < 10) : (digitByte d).toNat = 0x30 + d := by
  simp only [digitByte, BitVec.toNat_ofNat]
  omega

theorem digitValue_digitByte {d : Nat} (h : d < 10) : digitValue (digitByte d) = some d := by
  simp [digitValue, toNat_digitByte h, show 48 + d ≤ 57 by omega]

theorem readDigits_append (acc : Nat) (xs ys : List Byte) :
    readDigits acc (xs ++ ys) = (readDigits acc xs).bind fun n => readDigits n ys := by
  induction xs generalizing acc with
  | nil => rfl
  | cons b bs ih =>
    simp only [List.cons_append, readDigits]
    cases digitValue b with
    | none => rfl
    | some d => exact ih _

/-- The digits of a number that fits in `fuel` digits read back as that number. -/
theorem readDigits_digitsUpTo {fuel m : Nat} (hf : 0 < fuel) (h : m < 10 ^ fuel) :
    readDigits 0 (digitsUpTo fuel m) = some m := by
  induction fuel generalizing m with
  | zero => omega
  | succ n ih =>
    unfold digitsUpTo
    split_ifs with hm
    · simp [readDigits, digitValue_digitByte hm]
    · cases n with
      | zero => omega
      | succ n =>
        have h' : m / 10 < 10 ^ (n + 1) := by rw [Nat.div_lt_iff_lt_mul (by omega)]; rwa [pow_succ] at h
        rw [readDigits_append, ih (by omega) h']
        simp only [Option.bind_some, readDigits, digitValue_digitByte (Nat.mod_lt m (by omega : 10 > 0))]
        congr 1
        omega

end Sys2Proof.Machine
end

