-- ==== Sys2Proof/Tests/Slice0.lean ====
section
/-! SUPPORT. Tests of the model. Expected results are the vectors of spec/95_test_vectors.md, named by their ids there, or the
spec's own examples; the witnesses show that the hypotheses of each obligation can be met, each clause at a boundary. -/

namespace Sys2Proof.Tests

open Sys2Proof.Machine

/-! ## The states the tests start from -/

/-- The state of `LOAD(img)` (R242) with preset registers, and a sink that answers as given. -/
def start (img : List Byte) (preset : List (RegIx × Word)) (sink : SinkAnswer := .ok) : State :=
  preset.foldl (fun s p => s.setReg p.1 p.2)
    { State.reset with mem := Memory.ofImage 0 img, sink := { answers := [sink], after := .never } }

/-- A state with the bytes at address `a`, where the IP stands. -/
def startAt (a : Nat) (bytes : List Byte) : State :=
  { (start [] []).setReg 0 (BitVec.ofNat 32 a) with mem := Memory.ofImage a bytes }

/-- One step, then one field of the next state. -/
def after {α : Type} (s : State) (f : State → α) : Option α := (stateOf (step s)).map f

/-- `n` steps of the host's run. -/
def afterRun {α : Type} (n : Nat) (s : State) (f : State → α) : Option α := (stateOf (Host.Core.run core n s)).map f

/-! ## WellFormed refuses an ill-formed operand in every place of every format -/

theorem test_wellFormed_refuses :
    [Instr.moveIf 16 0 0, .moveIf 0 16 0, .moveIf 0 0 16, .store 16 0, .store 0 16, .load 16 0, .load 0 16,
      .loadImmediate 16 0, .subtract 16 0 0, .subtract 0 16 0, .subtract 0 0 16, .outputChar 16, .outputNumber 16].map
      Instr.wellFormed = List.replicate 13 false := by decide

theorem test_wellFormed_accepts :
    [Instr.moveIf 15 15 15, .store 15 15, .load 15 15, .loadImmediate 15 0xFFFF, .subtract 15 15 15, .outputChar 15, .halt,
      .outputNumber 15].map Instr.wellFormed = List.replicate 8 true := by decide

/-! ## Decoding: the bytes of the spec's examples, bit by bit (R61, R64) -/

theorem test_decode_moveIf : decode [0b00000001, 0b00000001, 0b00000010, 0b00000011] = .instr (.moveIf 1 2 3) [] := by decide
theorem test_decode_store : decode [0b00000010, 0b00000001, 0b00000010] = .instr (.store 1 2) [] := by decide
theorem test_decode_load : decode [0b00000011, 0b00000001, 0b00000010] = .instr (.load 1 2) [] := by decide
theorem test_decode_loadImmediate :
    decode [0b00000100, 0b00000001, 0b00110100, 0b00010010] = .instr (.loadImmediate 1 0x1234) [] := by decide
theorem test_decode_subtract : decode [0b00000101, 0b00000001, 0b00000010, 0b00000011] = .instr (.subtract 1 2 3) [] := by decide
theorem test_decode_outputChar : decode [0b00000110, 0b00000001] = .instr (.outputChar 1) [] := by decide
theorem test_decode_halt : decode [0b00000111] = .instr .halt [] := by decide
theorem test_decode_outputNumber : decode [0b00001000, 0b00000001] = .instr (.outputNumber 1) [] := by decide

/-- 0x10 does not name `x[0]`: no bit of a register byte is dropped (R62). -/
theorem test_decode_keeps_register_byte : decode [0x08, 0x10, 0x07] = .instr (.outputNumber 16) [0x07] := by decide

/-- D9, W6 and the empty image's zero byte: no instruction (R66). -/
theorem test_decode_unknown : [[0xFF], [0x09], [0x00]].map decode = List.replicate 3 Decoded.unknownOpcode := by decide

theorem test_decode_truncated : [[], [0x04, 0x01, 0xFF]].map decode = List.replicate 2 Decoded.truncated := by decide

/-- The table's rows with operand bits, in the table's bit numbering: `05 01 02 03` and a bare `06`. -/
theorem test_decodeTableWord :
    decodeTableWord 32 0x03020105 = some (.subtract 1 2 3) ∧ decodeTableWord 8 0xAB06 = some (.outputChar 0) := by decide

/-! ## move-if -/

/-- M1. -/
theorem test_moveIf_moves : after (start [0x01, 1, 2, 3] [(2, 0x1234), (3, 1)]) (fun t => (t.reg 1, t.ip)) = some (0x1234, 4) := by
  decide
/-- D8: every operand is checked, even with a false condition, and the advance stays. -/
theorem test_moveIf_validates : after (start [0x01, 0x10, 1, 2] []) (fun t => (t.status, t.ip)) =
    some (.failed .registerOutOfRange, 4) := by decide

/-! ## store -/

/-- S4: unaligned, little-endian. -/
theorem test_store_unaligned : after (start [0x02, 1, 2] [(1, 0x101), (2, 0x11223344)])
    (fun t => (t.mem.readBytes 0x100 6, t.ip)) = some ([0x00, 0x44, 0x33, 0x22, 0x11, 0x00], 3) := by decide
/-- S2: one past the last legal address writes nothing. -/
theorem test_store_bound : after (start [0x02, 1, 2] [(1, 0xFFD), (2, 0xAABBCCDD)])
    (fun t => (t.mem.readBytes 0xFFC 4, t.status)) = some ([0, 0, 0, 0], .failed .addressOutOfBounds) := by decide

/-! ## load -/

/-- L5: B = 0 reads the address of the next instruction. -/
theorem test_load_next_bytes : after (start [0x03, 1, 0, 0x07] []) (fun t => (t.reg 1, t.ip)) = some (7, 3) := by decide
/-- L2: the destination keeps its value. -/
theorem test_load_bound : after (start [0x03, 1, 2] [(1, 9), (2, 0xFFD)]) (fun t => (t.reg 1, t.ip, t.status)) =
    some (9, 3, .failed .addressOutOfBounds) := by decide

/-! ## load-immediate -/

/-- W3. -/
theorem test_loadImmediate_signs : after (start [0x04, 1, 0x00, 0x80] []) (fun t => t.reg 1) = some 0xFFFF8000 := by decide
/-- D2: a jump to 4096 fails at the next step and keeps the IP. -/
theorem test_loadImmediate_jump_out : afterRun 2 (start [0x04, 0, 0x00, 0x10] []) (fun t => (t.ip, t.status)) =
    some (0x1000, .failed .programCounterOutOfBounds) := by decide

/-! ## subtract -/

/-- The vector 0x80000000 − 1. -/
theorem test_subtract_wraps : after (start [0x05, 1, 2, 3] [(2, 0x80000000), (3, 1)]) (fun t => t.reg 1) =
    some 0x7FFFFFFF := by decide
/-- SUB-r0: register 0 reads the advanced IP. -/
theorem test_subtract_reads_ip : after (start [0x05, 1, 0, 2] [(2, 0xFFFFFFFC)]) (fun t => (t.reg 1, t.ip)) = some (8, 4) := by
  decide

/-! ## output-char -/

/-- U+0141, U+07FF, U+20AC and U+1F600. -/
theorem test_utf8 : [0x141, 0x7FF, 0x20AC, 0x1F600].map utf8 =
    [[0xC5, 0x81], [0xDF, 0xBF], [0xE2, 0x82, 0xAC], [0xF0, 0x9F, 0x98, 0x80]] := by decide
/-- OC-fail-partial. -/
theorem test_outputChar_partial : after (start [0x06, 1] [(1, 0xE9)] (.fail 1)) (fun t => (t.out, t.status, t.ip)) =
    some ([0xC3], .failed .outputFailed, 2) := by decide
/-- The invalid values 0xDFFF and 0xFFFFFF41 write nothing. -/
theorem test_outputChar_invalid : [0xDFFF, 0xFFFFFF41].map (fun v => after (start [0x06, 1] [(1, v)]) fun t => (t.out, t.status)) =
    List.replicate 2 (some ([], .failed .invalidCodePoint)) := by decide

/-! ## halt -/

/-- D4: a halt at 4095 is legal. -/
theorem test_halt_at_end : after (startAt 4095 [0x07]) (fun t => (t.ip, t.status)) = some (0x1000, .halted) := by decide
/-- D11: a step after the halt changes nothing. -/
theorem test_halt_is_terminal : afterRun 2 (start [0x07, 0x07] []) (fun t => (t.ip, readStatus t)) = some (1, 1) := by decide

/-! ## output-number -/

/-- The longest text, "-2147483648", and "0". -/
theorem test_decimal : [0x80000000, 0].map (fun v : Word => decimal v.toInt) =
    [[0x2D, 0x32, 0x31, 0x34, 0x37, 0x34, 0x38, 0x33, 0x36, 0x34, 0x38], [0x30]] := by decide
/-- W5. -/
theorem test_outputNumber : afterRun 2 (start [0x08, 1, 0x07] [(1, 0xFFFFFFD6)]) (fun t => (t.out, t.ip, t.status)) =
    some ([0x2D, 0x34, 0x32], 3, .halted) := by decide

/-! ## The dispatch step and the host's transactions -/

/-- D6: output-char at 4095 does not fit, and nothing is output. -/
theorem test_fetch_width : after (startAt 4095 [0x06]) (fun t => (t.ip, t.out, t.status)) =
    some (0x0FFF, [], .failed .programCounterOutOfBounds) := by decide
/-- An unknown opcode at 4095 reports UnknownOpcode (R209). -/
theorem test_fetch_priority : after (startAt 4095 [0x09]) (fun t => (t.ip, t.status)) =
    some (0x0FFF, .failed .unknownOpcode) := by decide
/-- OC-stuck. -/
theorem test_sink_never_answers : after (start [0x06, 1] [] .never) (fun t => t.ip) = none := by decide
/-- Z2. -/
theorem test_load_inspect : (load [0x04, 1, 2, 3] State.reset).map (fun t =>
    ([0, 1, 2, 3, 4, 4095].map (readMem · t), readReg 15 t, readStatus t)) =
    some ([some 4, some 1, some 2, some 3, some 0, some 0], some 0, 0) := by decide
/-- Z3. -/
theorem test_inspect_out_of_range : readReg 16 State.reset = none ∧ readMem 4096 State.reset = none := by decide
/-- The STATUS words of the vectors' table. -/
theorem test_statusWord : [Status.running, .halted, .failed .programCounterOutOfBounds, .failed .registerOutOfRange,
    .failed .addressOutOfBounds, .failed .invalidCodePoint, .failed .unknownOpcode, .failed .outputFailed].map statusWord =
    [0x00, 0x01, 0x12, 0x22, 0x32, 0x42, 0x52, 0x62] := by decide
/-- The first instruction after reset is the one placed for it. -/
theorem test_withFetchWord : after (State.reset.withFetchWord 32 0xFFD60504) (fun t => (t.reg 5, t.ip)) =
    some (0xFFFFFFD6, 4) := by decide

/-! ## Witnesses: for each obligation with hypotheses, values that meet them all, for each clause at a boundary -/

theorem witness_DecodedBytesAreTheEncoding : decode [0x07, 0x09] = .instr .halt [0x09] := by decide

theorem witness_StepRunsDecodedInstruction :
    (startAt 4095 [0x07]).status = .running ∧ decode (bytesAtIp (startAt 4095 [0x07])) = .instr .halt [] := by decide

theorem witness_TerminalStepChangesNothing : (State.reset.setStatus .halted).status ≠ .running := by decide

theorem witness_StepWithIpPastMemoryFails :
    (startAt 4096 []).status = .running ∧ Config.memorySize ≤ (startAt 4096 []).ip.toNat := by decide

theorem witness_StepOnUnknownOpcodeFails_zero :
    State.reset.status = .running ∧ State.reset.ip.toNat < Config.memorySize ∧
      (State.reset.mem.readByte State.reset.ip.toNat).toNat = 0 := by decide

theorem witness_StepOnUnknownOpcodeFails_nine :
    (startAt 4095 [0x09]).status = .running ∧ (startAt 4095 [0x09]).ip.toNat < Config.memorySize ∧
      9 ≤ ((startAt 4095 [0x09]).mem.readByte (startAt 4095 [0x09]).ip.toNat).toNat := by decide

/-- The second alternative of the first clause, and the hypotheses of the second clause: output-char at 4095. -/
theorem witness_ProgramCounterErrorExactlyWhenFetchLeavesMemory :
    (startAt 4095 [0x06]).status = .running ∧
    (startAt 4095 [0x06]).mem.readByte (startAt 4095 [0x06]).ip.toNat = (Instr.outputChar 0).opcode.toByte ∧
    Config.memorySize < (startAt 4095 [0x06]).ip.toNat + (Instr.outputChar 0).width ∧
    after (startAt 4095 [0x06]) State.status = some (.failed .programCounterOutOfBounds) := by decide

theorem witness_HaltedExactlyByHaltOpcode :
    (startAt 4095 [0x07]).status = .running ∧ ∃ t, step (startAt 4095 [0x07]) = .next t := ⟨by decide, _, rfl⟩

/-- One failing step for each kind that a step can fail with. -/
theorem witness_FailedStepLeavesOnlyTheAdvance :
    ([startAt 4096 [], start [0x01, 16, 0, 0] [], start [0x02, 1, 2] [(1, 4093)], start [0x06, 1] [(1, 0x110000)],
      start [0x09] [], start [0x06, 1] [(1, 0x41)] (.fail 0)].map fun s => (s.status, after s State.status)) =
    [ErrorKind.programCounterOutOfBounds, .registerOutOfRange, .addressOutOfBounds, .invalidCodePoint, .unknownOpcode,
      .outputFailed].map fun k => (.running, some (.failed k)) := by decide

theorem witness_StepKeepsInvariant :
    Inv (start [0x02, 1, 2] [(1, 4092), (2, 5)]) ∧ ∃ t, step (start [0x02, 1, 2] [(1, 4092), (2, 5)]) = .next t :=
  ⟨⟨by decide, by decide⟩, _, rfl⟩

theorem witness_ResetAndLoadMeetInvariant : ∃ t, load [0x07] State.reset = some t := ⟨_, rfl⟩

theorem witness_StepOnlyAppendsOutput : ∃ t, step (start [0x08, 1] [(1, 0x80000000)]) = .next t ∧ t.out ≠ [] :=
  ⟨_, rfl, by decide⟩

theorem witness_OnlyStoreChangesMemory : ∃ t, step (start [0x02, 1, 2] [(1, 4092), (2, 5)]) = .next t ∧
    t.mem ≠ (start [0x02, 1, 2] [(1, 4092), (2, 5)]).mem := ⟨_, rfl, by decide⟩

theorem witness_StepWritesAtMostOneRegister : ∃ t, step (start [0x04, 15, 1, 0] []) = .next t ∧ t.reg 15 = 1 :=
  ⟨_, rfl, by decide⟩

theorem witness_OutputTraceIsNeverReadBack : ∃ t, step (start [0x08, 1] []) = .next t := ⟨_, rfl⟩

theorem witness_SetRegisterWritesOneOrFails : (15 : Byte).toNat ≤ 15 ∧ 15 < (16 : Byte).toNat := by decide

theorem witness_WordWriteIsLittleEndianAndReadsBack :
    Memory.wf [(5, 1)] = true ∧ (4092 : Word).toNat + 4 ≤ Config.memorySize ∧ Config.memorySize < (4093 : Word).toNat + 4 := by
  decide

theorem witness_WordReadIsLittleEndian :
    (4092 : Word).toNat + 4 ≤ Config.memorySize ∧ Config.memorySize < (0xFFFFFFFD : Word).toNat + 4 := by decide

theorem witness_RegisterOutOfRangeExactlyWhenIllFormed_fails : (Instr.moveIf 0 0 16).wellFormed = false := by decide

theorem witness_RegisterOutOfRangeExactlyWhenIllFormed_runs :
    (Instr.outputNumber 15).wellFormed = true ∧ State.reset.status ≠ .failed .registerOutOfRange ∧
      ∃ t, exec (.outputNumber 15) State.reset = .next t := ⟨by decide, by decide, _, rfl⟩

theorem witness_StoreWritesWordAtRegisterA_registers : 15 < (16 : Byte).toNat ∨ 15 < (0 : Byte).toNat := by decide

theorem witness_StoreWritesWordAtRegisterA_fits :
    (start [] [(1, 4092)]).mem.wf = true ∧ (((start [] [(1, 4092)]).advanceIp 3).reg 1).toNat + 4 ≤ Config.memorySize := by
  decide

theorem witness_StoreWritesWordAtRegisterA_bound :
    Config.memorySize < (((start [] [(1, 4093)]).advanceIp 3).reg 1).toNat + 4 := by decide

theorem witness_LoadReadsWordAtRegisterB_registers : 15 < (0 : Byte).toNat ∨ 15 < (16 : Byte).toNat := by decide

theorem witness_LoadReadsWordAtRegisterB_fits : (operandValue 3 (start [] [(2, 4092)]) 2).toNat + 4 ≤ Config.memorySize := by
  decide

theorem witness_LoadReadsWordAtRegisterB_bound : Config.memorySize < (operandValue 3 (start [] [(2, 4093)]) 2).toNat + 4 := by
  decide

theorem witness_LoadImmediateSignExtends : 15 < (16 : Byte).toNat := by decide

theorem witness_SubtractWrapsModulo32Bits : 15 < (0 : Byte).toNat ∨ 15 < (0 : Byte).toNat ∨ 15 < (16 : Byte).toNat := by decide

theorem witness_OutputCharWritesUtf8 :
    isScalar (operandValue 2 (start [] [(1, 0x10FFFF)]) 1) = true ∧ (start [] [(1, 0x10FFFF)]).sink.answer = .ok := by decide

theorem witness_OutputCharRejectsNonScalar :
    isScalar (operandValue 2 (start [] [(1, 0xD800)]) 1) = false ∧ isScalar (operandValue 2 (start [] [(1, 0x110000)]) 1) = false := by
  decide

theorem witness_OutputNumberWritesSignedDecimal : (start [] [(1, 0x80000000)]).sink.answer = .ok := by decide

theorem witness_FailedWriteKeepsDeliveredBytes :
    isScalar (operandValue 2 (start [] [(1, 0xE9)] (.fail 1)) 1) = true ∧ (start [] [(1, 0xE9)] (.fail 1)).sink.answer = .fail 1 := by
  decide

theorem witness_SilentSinkLeavesStepStuck :
    isScalar (operandValue 2 (start [] [(1, 0xE9)] .never) 1) = true ∧ (start [] [(1, 0xE9)] .never).sink.answer = .never := by
  decide

/-- The last two clauses: the text that begins with a zero, and a negative value. -/
theorem witness_DecimalTextIsMinimal : (decimal (0 : Word).toInt).head? = some 0x30 ∧ (0xFFFFFFFF : Word).toInt < 0 := by decide

theorem witness_JumpTargetIsCheckedAtNextFetch : (start [] []).status = .running ∧
    ∃ t, exec (pseudoJump 0x1000) (start [] []) = .next t ∧ Config.memorySize ≤ t.ip.toNat := ⟨by decide, _, rfl, by decide⟩

/-- The last address at which a store over the next instruction fits, with a halt in register 2 to store. -/
def beforeStore : State := (startAt 4089 []).setReg 2 7

theorem witness_StoredInstructionRunsNext :
    beforeStore.status = .running ∧ beforeStore.mem.wf = true ∧ beforeStore.ip.toNat + 7 ≤ Config.memorySize ∧
    decode [byteOf (operandValue 3 beforeStore 2) 0, byteOf (operandValue 3 beforeStore 2) 1,
      byteOf (operandValue 3 beforeStore 2) 2, byteOf (operandValue 3 beforeStore 2) 3] = .instr .halt [0, 0, 0] := by decide

theorem witness_PseudoInstructionsDoWhatTheyName : (startAt 4092 []).ip.toNat + 4 ≤ Config.memorySize := by decide

theorem witness_CallIdiomReturnsAfterTheJump : (10 : RegIx) ≠ 0 ∧ ((startAt 4088 []).setReg 15 0xFFFFFFFC).reg 15 = 0xFFFFFFFC ∧
    ((startAt 4088 []).setReg 15 0xFFFFFFFC).ip.toNat + 8 ≤ Config.memorySize := by decide

theorem witness_ConstructionCopiesImageAndZeroes : (List.replicate 4096 (0x07 : Byte)).length ≤ Config.memorySize := by
  rw [List.length_replicate]

theorem witness_OversizedImageIsRefused : Config.memorySize < (List.replicate 4097 (0x07 : Byte)).length := by
  rw [List.length_replicate]
  decide

theorem witness_RunEndsInOneTerminalState : ∃ t, runFor 1 (start [0x07] []) = some t := ⟨_, rfl⟩

/-- The range clauses of the inspection reads. -/
theorem witness_InspectionReadsOnlyInRange : 15 < 16 ∧ 4095 ≤ 4095 ∧ 4095 < 4096 := by decide

theorem witness_PlacedWordRunsNext : (startAt 4092 []).mem.wf = true ∧ (startAt 4092 []).ip.toNat + 4 ≤ Config.memorySize ∧
    decodeTableWord 32 0x03020105 = some (.subtract 1 2 3) := by decide

end Sys2Proof.Tests
end

