-- ==== Sys2Proof/Proofs/Dispatch.lean ====
section
/-! PROOFS. A dispatch step whose fetch fails at the IP bound or at the opcode byte (spec/40_dispatch.md R81, R82). -/

namespace Sys2Proof

/-- Which bytes the opcode map leaves out (R64). -/
theorem Opcode.ofByte_eq_none_iff {b : Byte} : Opcode.ofByte b = none ↔ b.toNat = 0 ∨ 9 ≤ b.toNat := by
  unfold Opcode.ofByte
  split
  case h_9 => simp only [true_iff, imp_false] at *; omega
  all_goals simp only [reduceCtorEq, false_iff]; omega

end Sys2Proof

namespace Sys2Proof.Machine

variable {s : State}

/-- The first check of a fetch (R81). -/
theorem fetch_of_memorySize_le_ip (hip : Config.memorySize ≤ s.ip.toNat) :
    fetch s = .error .programCounterOutOfBounds := by
  obtain ⟨-, h⟩ | ⟨hlt, -⟩ | ⟨_, hlt, -⟩ | ⟨_, hlt, -⟩ := fetch_cases s
  · exact h
  all_goals exact absurd hip hlt.not_ge

/-- The second check of a fetch (R82). -/
theorem fetch_of_ofByte_eq_none (hip : s.ip.toNat < Config.memorySize)
    (hop : Opcode.ofByte (s.mem.readByte s.ip.toNat) = none) : fetch s = .error .unknownOpcode := by
  obtain ⟨hge, -⟩ | ⟨-, -, h⟩ | ⟨_, -, hsome, -⟩ | ⟨_, -, hsome, -⟩ := fetch_cases s
  · exact absurd hip hge.not_gt
  · exact h
  all_goals cases hop.symm.trans hsome

/-- A failed fetch ends the step of a running machine with only the status changed (R81 to R83). -/
theorem step_of_fetch_eq_error {k : ErrorKind} (hrun : s.status = .running) (hfetch : fetch s = .error k) :
    step s = .next { s with status := .failed k } := by
  obtain ⟨hstop, -⟩ | ⟨k', -, hk', h⟩ | ⟨i, -, hi, -⟩ := step_cases s
  · exact absurd hrun hstop
  · cases hfetch.symm.trans hk'
    exact h
  · cases hfetch.symm.trans hi

/-- Settles O8: the IP bound is the first check of the fetch, and a failed fetch changes only the status. -/
theorem stepWithIpPastMemoryFails : Obligations.StepWithIpPastMemoryFails :=
  fun _ hrun hip => step_of_fetch_eq_error hrun (fetch_of_memorySize_le_ip hip)

/-- Settles O9: the bytes 0x00 and 0x09 to 0xFF are those the opcode map leaves out, and a failed fetch changes only the
status. -/
theorem stepOnUnknownOpcodeFails : Obligations.StepOnUnknownOpcodeFails :=
  fun _ hrun hip hbyte => step_of_fetch_eq_error hrun (fetch_of_ofByte_eq_none hip (Opcode.ofByte_eq_none_iff.2 hbyte))

end Sys2Proof.Machine
end

