-- ==== Sys2Proof/Proofs/LoadImmediate.lean ====
section
/-! PROOFS. load-immediate: its immediate as arithmetic, and what its handler does to an operand byte that names a register
and to one that names none (spec/30_encoding.md R63, spec/41_move_and_memory.md R103). -/

namespace Sys2Proof

/-- A byte names no register exactly from 16 on (R23). -/
theorem regByteOk_eq_false_iff {r : Byte} : regByteOk r = false ↔ 15 < r.toNat := by
  simp only [regByteOk, Config.numRegs, decide_eq_false_iff_not]
  omega

/-- `(H << 8) | L`, as arithmetic: the two bytes share no bit, so the disjunction is a sum (R63). -/
theorem immOfBytes_eq_ofNat (l h : Byte) : immOfBytes l h = BitVec.ofNat 16 (256 * h.toNat + l.toNat) := by
  have hl := l.isLt
  have hh := h.isLt
  have low : (l.setWidth 16).toNat = l.toNat := by rw [BitVec.toNat_setWidth]; omega
  have high : (h.setWidth 16 <<< 8).toNat = h.toNat <<< 8 := by
    simp only [BitVec.toNat_shiftLeft, BitVec.toNat_setWidth, Nat.shiftLeft_eq]
    omega
  apply BitVec.eq_of_toNat_eq
  rw [immOfBytes, BitVec.toNat_or, low, high, Nat.or_comm, Machine.or_shiftLeft_of_lt hl, Nat.shiftLeft_eq,
    BitVec.toNat_ofNat]
  omega

/-- Format RI with opcode byte 0x04 (R61, R103). -/
theorem decode_loadImmediate (a l h : Byte) :
    decode [0x04, a, l, h] = .instr (.loadImmediate a (immOfBytes l h)) [] := rfl

end Sys2Proof

namespace Sys2Proof.Machine

variable (s : State)

/-- Validation of an operand byte that names no register (R86). -/
theorem State.withReg_of_regByteOk_eq_false {a : Byte} (ha : regByteOk a = false)
    (k : RegIx → Host.Outcome State Fault Refusal) :
    s.withReg a k = .next (s.setStatus (.failed .registerOutOfRange)) := by
  obtain ⟨i, hi, -⟩ | ⟨-, h⟩ := s.withReg_cases a k
  · cases hi.symm.trans (regIndex_eq_none_iff.2 ha)
  · exact h

/-- A register write after the advance leaves every other register at its operand value (R88, R95). -/
theorem reg_setReg_advanceIp_ne {a r : RegIx} (hr : r ≠ a) (w : Nat) (v : Word) :
    ((s.advanceIp w).setReg a v).reg r = operandValue w s r :=
  (State.reg_setReg_ne _ hr v).trans (reg_advanceIp_eq_operandValue w s r)

/-- The advance and a register write change nothing outside the register bank. -/
theorem onlyRegsDiffer_setReg_advanceIp (a : RegIx) (w : Nat) (v : Word) :
    OnlyRegsDiffer s ((s.advanceIp w).setReg a v) := ⟨rfl, rfl, rfl, rfl⟩

/-- Sign extension keeps the two's-complement value (R63). -/
theorem toInt_immValue (imm : BitVec 16) : (immValue imm).toInt = imm.toInt :=
  BitVec.toInt_signExtend_of_le (by decide)

/-- load-immediate with a destination byte that names no register (R86, R103). -/
theorem exec_loadImmediate_of_regByteOk_eq_false {a : Byte} (ha : regByteOk a = false) (imm : BitVec 16) :
    exec (.loadImmediate a imm) s = .next ((s.advanceIp 4).setStatus (.failed .registerOutOfRange)) :=
  (s.advanceIp 4).withReg_of_regByteOk_eq_false ha _

/-- load-immediate with a destination byte that names a register (R103). -/
theorem exec_loadImmediate_regByte (a : RegIx) (imm : BitVec 16) :
    exec (.loadImmediate (regByte a) imm) s = .next ((s.advanceIp 4).setReg a (immValue imm)) :=
  (s.advanceIp 4).withReg_regByte a _

/-- Settles O27: the immediate's bytes add up, a byte that names no register fails the validation, and otherwise the handler
is the advance and one register write of the sign-extended immediate. -/
theorem loadImmediateSignExtends : Obligations.LoadImmediateSignExtends := by
  refine ⟨fun a l h => ?_, fun a imm s ha => ?_, fun a imm s => ?_⟩
  · rw [decode_loadImmediate, immOfBytes_eq_ofNat]
  · rw [exec_loadImmediate_of_regByteOk_eq_false s (regByteOk_eq_false_iff.2 ha)]
    exact failsAfterAdvance_setStatus _ _ s
  · refine ⟨_, exec_loadImmediate_regByte s a imm, ?_, fun r hr => reg_setReg_advanceIp_ne s hr _ _,
      onlyRegsDiffer_setReg_advanceIp s a _ _⟩
    rw [State.reg_setReg_self, toInt_immValue]

end Sys2Proof.Machine
end

