-- ==== Sys2Proof/Proofs/Subtract.lean ====
section
/-! PROOFS. subtract: the word difference as arithmetic on integers, the validation of three operand bytes, and what the
handler does to bytes that name registers and to one that names none (spec/40_dispatch.md R86, spec/42_arithmetic.md R140). -/

namespace Sys2Proof.Machine

/-- The word difference is the integer difference modulo 2^32 (R140). -/
theorem natCast_toNat_sub (x y : Word) : ((x - y).toNat : Int) = (x.toNat - y.toNat : Int) % 2 ^ 32 := by
  have hy := y.isLt
  rw [BitVec.toNat_sub]
  omega

variable (s : State) {a b c : Byte}

/-- Validation of three operand bytes of which one names no register, whichever it is (R86). -/
theorem State.withRegs3_of_fifteen_lt (h : 15 < a.toNat ∨ 15 < b.toNat ∨ 15 < c.toNat)
    (k : RegIx → RegIx → RegIx → Host.Outcome State Fault Refusal) :
    s.withRegs3 a b c k = .next (s.setStatus (.failed .registerOutOfRange)) := by
  obtain ⟨i, j, l, hi, hj, hl, -⟩ | ⟨-, hfail⟩ := s.withRegs3_cases a b c k
  · simp only [← regByteOk_eq_false_iff, ← regIndex_eq_none_iff, hi, hj, hl, reduceCtorEq, or_self] at h
  · exact hfail

/-- subtract with an operand byte that names no register (R86, R140). -/
theorem exec_subtract_of_fifteen_lt (h : 15 < a.toNat ∨ 15 < b.toNat ∨ 15 < c.toNat) :
    exec (.subtract a b c) s = .next ((s.advanceIp 4).setStatus (.failed .registerOutOfRange)) :=
  (s.advanceIp 4).withRegs3_of_fifteen_lt h _

/-- subtract with operand bytes that name registers: both operands are read after the advance (R88, R140). -/
theorem exec_subtract_regByte (a b c : RegIx) :
    exec (.subtract (regByte a) (regByte b) (regByte c)) s =
      .next ((s.advanceIp 4).setReg a (operandValue 4 s b - operandValue 4 s c)) := by
  rw [← reg_advanceIp_eq_operandValue, ← reg_advanceIp_eq_operandValue]
  exact (s.advanceIp 4).withRegs3_regByte a b c _

/-- Settles O28: a byte that names no register fails the validation, and otherwise the handler is the advance and one register
write of the word difference, which is the integer difference modulo 2^32. -/
theorem subtractWrapsModulo32Bits : Obligations.SubtractWrapsModulo32Bits := by
  refine ⟨fun _ _ _ => rfl, fun a b c s h => ?_, fun a b c s => ?_⟩
  · rw [exec_subtract_of_fifteen_lt s h]
    exact failsAfterAdvance_setStatus _ _ s
  · refine ⟨_, exec_subtract_regByte s a b c, ?_, fun r hr => reg_setReg_advanceIp_ne s hr _ _,
      onlyRegsDiffer_setReg_advanceIp s a _ _⟩
    rw [State.reg_setReg_self, natCast_toNat_sub]

end Sys2Proof.Machine
end

