-- ==== Sys2Proof/Proofs/ProgramCounterError.lean ====
section
/-! PROOFS. Which steps raise ProgramCounterOutOfBounds: those whose fetch leaves memory, and no handler
(spec/40_dispatch.md R81, R83, spec/60_exceptions.md R202). -/

namespace Sys2Proof

/-- The opcode map reads exactly the byte an opcode is written with (R64). -/
theorem Opcode.ofByte_eq_some_iff {b : Byte} {op : Opcode} : Opcode.ofByte b = some op ↔ b = op.toByte :=
  ⟨Opcode.eq_toByte_of_ofByte, fun h => h ▸ Opcode.ofByte_toByte op⟩

/-- Every opcode is that of some instruction (R64). -/
theorem Instr.opcode_surjective : Function.Surjective Instr.opcode :=
  fun op => ⟨op.assemble 0 0 0, op.opcode_assemble 0 0 0⟩

end Sys2Proof

namespace Sys2Proof.Machine

variable {s t : State}

/-- The fetch leaves memory at the IP bound or by the width of the known opcode at the IP (R81, R83). -/
theorem fetch_eq_programCounterOutOfBounds_iff :
    fetch s = .error .programCounterOutOfBounds ↔ Config.memorySize ≤ s.ip.toNat ∨
      ∃ op, Opcode.ofByte (s.mem.readByte s.ip.toNat) = some op ∧ Config.memorySize < s.ip.toNat + op.width := by
  obtain ⟨hge, h⟩ | ⟨hlt, hop, h⟩ | ⟨op, -, hop, hwide, h⟩ | ⟨op, hlt, hop, hfits, h⟩ := fetch_cases s
  · exact iff_of_true h (.inl hge)
  · simp [h, hop, hlt]
  · exact iff_of_true h (.inr ⟨op, hop, hwide⟩)
  · simp [h, hop, hlt, hfits]

/-- The same for an instruction in place of its opcode. -/
theorem fetch_eq_programCounterOutOfBounds_iff_instr :
    fetch s = .error .programCounterOutOfBounds ↔ Config.memorySize ≤ s.ip.toNat ∨
      ∃ i : Instr, s.mem.readByte s.ip.toNat = i.opcode.toByte ∧ Config.memorySize < s.ip.toNat + i.width := by
  rw [fetch_eq_programCounterOutOfBounds_iff, Instr.opcode_surjective.exists]
  simp only [Opcode.ofByte_eq_some_iff, Instr.width]

/-- The status after a write to the sink (R216). -/
theorem status_of_output_eq_next {bs : List Byte} (h : s.output bs = .next t) :
    t.status = s.status ∨ t.status = .failed .outputFailed := by
  obtain ⟨-, ho⟩ | ⟨_, -, ho⟩ | ⟨-, ho⟩ := s.output_cases bs <;> cases h.symm.trans ho
  · exact .inl rfl
  · exact .inr rfl

/-- The status a handler leaves: the errors it can raise are its own and OutputFailed, never one of the fetch (R209). -/
theorem status_of_exec_eq_next {i : Instr} (h : exec i s = .next t) :
    t.status = s.status ∨ t.status = .halted ∨
      ∃ k : ErrorKind, (k.ofHandler = true ∨ k = .outputFailed) ∧ t.status = .failed k := by
  have write {bs : List Byte} (ho : exec i s = (s.advanceIp i.width).output bs) :
      t.status = s.status ∨ t.status = .halted ∨
        ∃ k : ErrorKind, (k.ofHandler = true ∨ k = .outputFailed) ∧ t.status = .failed k :=
    (status_of_output_eq_next (ho.symm.trans h)).imp_right fun hs => .inr ⟨_, .inr rfl, hs⟩
  obtain ⟨k, hk, he⟩ | ⟨-, he⟩ | ⟨-, a, v, he⟩ | ⟨-, addr, v, m, -, he⟩ | ⟨-, he⟩ | ⟨_, -, v, -, he⟩ | ⟨_, -, v, he⟩ :=
    exec_cases i s
  · cases h.symm.trans he
    exact .inr (.inr ⟨k, .inl hk, rfl⟩)
  · cases h.symm.trans he
    exact .inl rfl
  · cases h.symm.trans he
    exact .inl rfl
  · cases h.symm.trans he
    exact .inl rfl
  · cases h.symm.trans he
    exact .inr (.inl rfl)
  · exact write he
  · exact write he

/-- No handler of a running machine raises ProgramCounterOutOfBounds (R202). -/
theorem exec_status_ne_programCounterOutOfBounds {i : Instr} (hrun : s.status = .running) (h : exec i s = .next t) :
    t.status ≠ .failed .programCounterOutOfBounds := by
  intro hpc
  obtain hs | hs | ⟨k, hk, hs⟩ := status_of_exec_eq_next h
  · cases hpc.symm.trans (hs.trans hrun)
  · cases hpc.symm.trans hs
  · cases hpc.symm.trans hs
    simp [ErrorKind.ofHandler] at hk

/-- Only a failed fetch raises ProgramCounterOutOfBounds in a running machine (R202). -/
theorem fetch_of_step_programCounterOutOfBounds (hrun : s.status = .running) (hstep : step s = .next t)
    (hpc : t.status = .failed .programCounterOutOfBounds) : fetch s = .error .programCounterOutOfBounds := by
  obtain ⟨hstop, -⟩ | ⟨k, -, hfetch, h⟩ | ⟨i, -, -, h⟩ := step_cases s
  · exact absurd hrun hstop
  · cases hstep.symm.trans h
    cases hpc
    exact hfetch
  · exact absurd hpc (exec_status_ne_programCounterOutOfBounds hrun (h.symm.trans hstep))

/-- Settles O10: a fetch that leaves memory fails with only the status changed, and no handler raises this error, so a step
that ends in it had such a fetch. -/
theorem programCounterErrorExactlyWhenFetchLeavesMemory : Obligations.ProgramCounterErrorExactlyWhenFetchLeavesMemory :=
  fun _ hrun =>
    ⟨fun hleaves => step_of_fetch_eq_error hrun (fetch_eq_programCounterOutOfBounds_iff_instr.2 hleaves),
      fun _ hstep hpc =>
        fetch_eq_programCounterOutOfBounds_iff_instr.1 (fetch_of_step_programCounterOutOfBounds hrun hstep hpc)⟩

end Sys2Proof.Machine
end

