-- ==== Sys2Proof/Proofs/Encoding.lean ====
section
/-! PROOFS. The decoder and the encoder are inverse to each other, and what the decoder rejects (spec/30_encoding.md R60 to
R67). -/

namespace Sys2Proof

/-! ## One instruction as an opcode byte and the operand bytes its format takes -/

/-- A string that begins with an opcode's byte is too short for it or is read as its instruction (R65). -/
theorem decode_toByte_cons (op : Opcode) (bs : List Byte) :
    decode (op.toByte :: bs) =
      if bs.length + 1 < op.width then .truncated
      else .instr (op.assemble (bs.getD 0 0) (bs.getD 1 0) (bs.getD 2 0)) (bs.drop (op.width - 1)) := by
  rw [decode, Opcode.ofByte_toByte]

theorem decode_toByte_cons_of_lt {op : Opcode} {bs : List Byte} (h : bs.length + 1 < op.width) :
    decode (op.toByte :: bs) = .truncated := by
  rw [decode_toByte_cons, if_pos h]

theorem decode_toByte_cons_of_le {op : Opcode} {bs : List Byte} (h : op.width ≤ bs.length + 1) :
    decode (op.toByte :: bs) =
      .instr (op.assemble (bs.getD 0 0) (bs.getD 1 0) (bs.getD 2 0)) (bs.drop (op.width - 1)) := by
  rw [decode_toByte_cons, if_neg h.not_gt]

/-- The decoder and the fetch name a rejected opcode byte alike (R66). -/
theorem decode_eq_unknownOpcode_iff {b : Byte} {bs : List Byte} :
    decode (b :: bs) = .unknownOpcode ↔ Opcode.ofByte b = none := by
  obtain ⟨hop, h⟩ | ⟨op, hop, -, h⟩ | ⟨op, hop, -, h⟩ := decode_cons_cases b bs <;> simp [hop, h]

/-- Format by format, the operand bytes taken are as many as the width leaves room for (R61). -/
theorem encode_assemble (op : Opcode) (b1 b2 b3 : Byte) :
    encode (op.assemble b1 b2 b3) = op.toByte :: [b1, b2, b3].take (op.width - 1) := by
  cases op with
  | loadImmediate =>
    rw [Opcode.assemble, encode, immLow_immOfBytes, immHigh_immOfBytes]
    rfl
  | moveIf | store | load | subtract | outputChar | halt | outputNumber => rfl

/-- The encoding begins with the opcode byte (R61). -/
theorem encode_eq_cons (i : Instr) : encode i = i.opcode.toByte :: (encode i).tail := by cases i <;> rfl

/-- The first bytes of a string, up to three, picked one by one. -/
theorem take_getD_three {bs : List Byte} {n : Nat} (hn : n ≤ bs.length) (h3 : n ≤ 3) :
    [bs.getD 0 0, bs.getD 1 0, bs.getD 2 0].take n = bs.take n := by
  match n, bs with
  | 0, _ => rfl
  | 1, _ :: _ => rfl
  | 2, _ :: _ :: _ => rfl
  | 3, _ :: _ :: _ :: _ => rfl

theorem Opcode.width_sub_one_le_three (op : Opcode) : op.width - 1 ≤ 3 :=
  Nat.sub_le_of_le_add (Laws.EncodingShape.width_bounds op).2

/-- What the decoder reads from the front is the encoding of what it answers. -/
theorem toByte_cons_eq_encode_append {op : Opcode} {bs : List Byte} (h : op.width ≤ bs.length + 1) :
    op.toByte :: bs =
      encode (op.assemble (bs.getD 0 0) (bs.getD 1 0) (bs.getD 2 0)) ++ bs.drop (op.width - 1) := by
  rw [encode_assemble, take_getD_three (by omega) op.width_sub_one_le_three, List.cons_append, List.take_append_drop]

/-- A string too short for its opcode is the beginning of an encoding (R65). -/
theorem toByte_cons_prefix_encode {op : Opcode} {bs : List Byte} (h : bs.length + 1 < op.width) :
    op.toByte :: bs <+: encode (op.assemble (bs.getD 0 0) (bs.getD 1 0) (bs.getD 2 0)) := by
  have hwidth := op.width_sub_one_le_three
  have hbs : [bs.getD 0 0, bs.getD 1 0, bs.getD 2 0].take bs.length = bs := by
    rw [take_getD_three le_rfl (by omega), List.take_length]
  rw [encode_assemble, List.prefix_cons_inj]
  calc bs = _ := hbs.symm
    _ <+: _ := List.take_prefix_take_left (by omega)

/-! ## The obligations -/

/-- Settles O1: format by format, with the two bytes of the immediate put together again. -/
theorem decodeReadsBackEncode : Obligations.DecodeReadsBackEncode := by
  intro i rest
  cases i with
  | moveIf a b c => exact decode_toByte_cons_of_le (op := .moveIf) (by simp [Opcode.width])
  | store a b => exact decode_toByte_cons_of_le (op := .store) (by simp [Opcode.width])
  | load a b => exact decode_toByte_cons_of_le (op := .load) (by simp [Opcode.width])
  | loadImmediate a imm =>
    refine (decode_toByte_cons_of_le (op := .loadImmediate) (by simp [Opcode.width])).trans ?_
    simp [Opcode.assemble, Opcode.width]
  | subtract a b c => exact decode_toByte_cons_of_le (op := .subtract) (by simp [Opcode.width])
  | outputChar a => exact decode_toByte_cons_of_le (op := .outputChar) (by simp [Opcode.width])
  | halt => exact decode_toByte_cons_of_le (op := .halt) (by simp [Opcode.width])
  | outputNumber a => exact decode_toByte_cons_of_le (op := .outputNumber) (by simp [Opcode.width])

/-- Settles O2: of the decoder's answers only the last is an instruction, and the bytes it takes are that instruction's. -/
theorem decodedBytesAreTheEncoding : Obligations.DecodedBytesAreTheEncoding := by
  intro bs rest i h
  cases bs with
  | nil => cases h
  | cons b bs =>
    obtain ⟨-, hd⟩ | ⟨op, -, -, hd⟩ | ⟨op, hop, hfits, hd⟩ := decode_cons_cases b bs <;> cases h.symm.trans hd
    rw [Opcode.eq_toByte_of_ofByte hop]
    exact toByte_cons_eq_encode_append hfits

/-- Settles O3: the rejected bytes are those the opcode map leaves out. -/
theorem undefinedOpcodeBytesAreRejected : Obligations.UndefinedOpcodeBytesAreRejected :=
  fun _ _ => decode_eq_unknownOpcode_iff.trans Opcode.ofByte_eq_none_iff

/-- Settles O4: a truncated string begins with a known opcode and can be filled up to its width; a proper beginning of an
encoding begins with its opcode byte. -/
theorem truncatedStringsAreProperPrefixes : Obligations.TruncatedStringsAreProperPrefixes := by
  intro bs
  cases bs with
  | nil => exact iff_of_true rfl ⟨.halt, Nat.one_pos, List.nil_prefix⟩
  | cons b bs =>
    constructor
    · intro h
      obtain ⟨-, hd⟩ | ⟨op, hop, hshort, -⟩ | ⟨op, -, -, hd⟩ := decode_cons_cases b bs
      · cases h.symm.trans hd
      · refine ⟨op.assemble (bs.getD 0 0) (bs.getD 1 0) (bs.getD 2 0), ?_, ?_⟩
        · rwa [Instr.width, Opcode.opcode_assemble]
        · rw [Opcode.eq_toByte_of_ofByte hop]
          exact toByte_cons_prefix_encode hshort
      · cases h.symm.trans hd
    · rintro ⟨i, hshort, hprefix⟩
      rw [encode_eq_cons, List.cons_prefix_cons] at hprefix
      rw [hprefix.1]
      exact decode_toByte_cons_of_lt hshort

/-- Settles O5: the decoder evaluated on the eight strings. -/
theorem specExampleWordsDecode : Obligations.SpecExampleWordsDecode :=
  ⟨rfl, rfl, rfl, rfl, rfl, rfl, rfl, rfl⟩

end Sys2Proof
end

