-- ==== Sys2Proof/Proofs/Fetch.lean ====
section
/-! PROOFS. The fetch is the decoder run on the bytes from the IP to the end of memory (spec/40_dispatch.md R83, R84, R91). -/

namespace Sys2Proof

/-- An instruction depends only on the operand bytes its width takes in (R61). -/
theorem Opcode.assemble_congr (op : Opcode) {b1 b2 b3 c1 c2 c3 : Byte} (h1 : 1 < op.width → b1 = c1)
    (h2 : 2 < op.width → b2 = c2) (h3 : 3 < op.width → b3 = c3) : op.assemble b1 b2 b3 = op.assemble c1 c2 c3 := by
  cases op <;> simp_all [Opcode.assemble, Opcode.width]

/-- The fetch error that stands for each way a string is not an instruction (R82, R83). -/
def Decoded.fetched : Decoded → Except Machine.ErrorKind Instr
  | .instr i _ => .ok i
  | .unknownOpcode => .error .unknownOpcode
  | .truncated => .error .programCounterOutOfBounds

theorem Decoded.fetched_eq_ok_iff {d : Decoded} {i : Instr} : d.fetched = .ok i ↔ ∃ rest, d = .instr i rest := by
  cases d <;> simp [Decoded.fetched]

end Sys2Proof

namespace Sys2Proof.Machine

variable {s t : State} {i : Instr}

/-- A byte of what can be read behind the opcode byte is the memory byte there. -/
theorem getD_readBytes {m : Memory} {a n k : Nat} (h : k < n) : (m.readBytes a n).getD k 0 = m.readByte (a + k) := by
  rw [List.getD_eq_getElem?_getD, Memory.getElem?_readBytes, if_pos h, Option.getD_some]

/-- A fetch decodes the bytes from the IP to the end of memory. -/
theorem fetch_eq_fetched_decode (s : State) : fetch s = (decode (bytesAtIp s)).fetched := by
  obtain ⟨hge, h⟩ | ⟨hlt, hop, h⟩ | ⟨op, hlt, hop, hwide, h⟩ | ⟨op, hlt, hop, hfits, h⟩ := fetch_cases s
  · rw [h, bytesAtIp_eq_nil hge]
    rfl
  · rw [h, bytesAtIp_eq_cons hlt, decode_eq_unknownOpcode_iff.2 hop]
    rfl
  · rw [h, bytesAtIp_eq_cons hlt, Opcode.eq_toByte_of_ofByte hop,
      decode_toByte_cons_of_lt (by rw [Memory.length_readBytes]; omega)]
    rfl
  · rw [h, bytesAtIp_eq_cons hlt, Opcode.eq_toByte_of_ofByte hop,
      decode_toByte_cons_of_le (by rw [Memory.length_readBytes]; omega)]
    have operand {k : Nat} (hk : k + 1 < op.width) := (getD_readBytes (m := s.mem) (a := s.ip.toNat + 1)
      (n := Config.memorySize - (s.ip.toNat + 1)) (k := k) (by omega)).symm
    exact congrArg Except.ok (op.assemble_congr operand operand operand)

theorem fetch_eq_ok_iff : fetch s = .ok i ↔ ∃ rest, decode (bytesAtIp s) = .instr i rest := by
  rw [fetch_eq_fetched_decode, Decoded.fetched_eq_ok_iff]

/-- A fetched instruction stands in memory with its opcode byte at the IP (R82, R84). -/
theorem opcode_of_fetch_eq_ok (h : fetch s = .ok i) :
    s.ip.toNat < Config.memorySize ∧ s.mem.readByte s.ip.toNat = i.opcode.toByte := by
  obtain ⟨-, he⟩ | ⟨-, -, he⟩ | ⟨_, -, -, -, he⟩ | ⟨op, hlt, hop, -, he⟩ := fetch_cases s <;> cases h.symm.trans he
  rw [Opcode.opcode_assemble]
  exact ⟨hlt, Opcode.eq_toByte_of_ofByte hop⟩

/-- The errors of a fetch (R81 to R83). -/
theorem eq_of_fetch_eq_error {k : ErrorKind} (h : fetch s = .error k) :
    k = .programCounterOutOfBounds ∨ k = .unknownOpcode := by
  obtain ⟨-, he⟩ | ⟨-, -, he⟩ | ⟨_, -, -, -, he⟩ | ⟨_, -, -, -, he⟩ := fetch_cases s <;> cases h.symm.trans he <;> simp

/-- The step of a running machine is the handler of the fetched instruction (R91). -/
theorem step_of_fetch_eq_ok (hrun : s.status = .running) (hfetch : fetch s = .ok i) : step s = exec i s := by
  obtain ⟨hstop, -⟩ | ⟨k, -, hk, -⟩ | ⟨i', -, hi', h⟩ := step_cases s
  · exact absurd hrun hstop
  · cases hfetch.symm.trans hk
  · cases hfetch.symm.trans hi'
    exact h

/-- Settles O6: a fetch decodes the bytes at the IP, and the step runs what it answers. -/
theorem stepRunsDecodedInstruction : Obligations.StepRunsDecodedInstruction :=
  fun _ _ rest hrun hdecode => step_of_fetch_eq_ok hrun (fetch_eq_ok_iff.2 ⟨rest, hdecode⟩)

/-- Settles O7: the status is looked at before the fetch. -/
theorem terminalStepChangesNothing : Obligations.TerminalStepChangesNothing := by
  intro s hstop
  obtain ⟨-, h⟩ | ⟨k, hrun, -⟩ | ⟨i, hrun, -⟩ := step_cases s
  · exact h
  · exact absurd hrun hstop
  · exact absurd hrun hstop

end Sys2Proof.Machine
end

