-- ==== Sys2Proof/Proofs/StepEffects.lean ====
section
/-! PROOFS. What a step that answers a next state may have done, and what it keeps (spec/40_dispatch.md R87, R95,
spec/60_exceptions.md R208 to R210, R217). -/

namespace Sys2Proof.Machine

variable {s t : State} {i : Instr}

/-! ## The effects of a handler -/

/-- The next states a handler can answer: `exec_cases` with the answers of the sink taken apart (R216). -/
inductive HandlerEffect (i : Instr) (s : State) : State → Prop where
  /-- One of the handler's own errors, before any effect but the advance. -/
  | raised (k : ErrorKind) (hk : k.ofHandler = true) : HandlerEffect i s ((s.advanceIp i.width).setStatus (.failed k))
  /-- Nothing but the advance. -/
  | advanced : HandlerEffect i s (s.advanceIp i.width)
  /-- One register write. -/
  | wroteReg (a : RegIx) (v : Word) : HandlerEffect i s ((s.advanceIp i.width).setReg a v)
  /-- One word write. -/
  | stored (hi : i.opcode = .store) (addr v : Word) (m : Memory) (hm : s.mem.writeWord addr v = .ok m) :
    HandlerEffect i s ((s.advanceIp i.width).setMem m)
  /-- The halt transition. -/
  | halted (hi : i = .halt) : HandlerEffect i s ((s.advanceIp i.width).setStatus .halted)
  /-- A write the sink accepted. -/
  | wrote (hi : i.opcode = .outputChar ∨ i.opcode = .outputNumber) (bytes : List Byte) (hlen : bytes.length ≤ 11) :
    HandlerEffect i s ((s.advanceIp i.width).deliver bytes)
  /-- A write that failed, with the bytes the sink accepted before. -/
  | writeFailed (hi : i.opcode = .outputChar ∨ i.opcode = .outputNumber) (bytes : List Byte) (hlen : bytes.length ≤ 11) :
    HandlerEffect i s (((s.advanceIp i.width).deliver bytes).setStatus (.failed .outputFailed))

/-- A write of a text of at most 11 bytes has one of the two output effects. -/
theorem handlerEffect_of_output (hi : i.opcode = .outputChar ∨ i.opcode = .outputNumber) {bytes : List Byte}
    (hlen : bytes.length ≤ 11) (h : (s.advanceIp i.width).output bytes = .next t) : HandlerEffect i s t := by
  obtain ⟨-, ho⟩ | ⟨k, -, ho⟩ | ⟨-, ho⟩ := (s.advanceIp i.width).output_cases bytes <;> cases h.symm.trans ho
  · exact .wrote hi bytes hlen
  · exact .writeFailed hi (bytes.take k) ((List.length_take_le' k bytes).trans hlen)

/-- A handler that answers a next state had one of these effects. -/
theorem handlerEffect_of_exec (h : exec i s = .next t) : HandlerEffect i s t := by
  obtain ⟨k, hk, he⟩ | ⟨-, he⟩ | ⟨-, a, v, he⟩ | ⟨hi, addr, v, m, hm, he⟩ | ⟨hi, he⟩ | ⟨a, rfl, v, -, he⟩ | ⟨a, rfl, v, he⟩ :=
    exec_cases i s
  · cases h.symm.trans he
    exact .raised k hk
  · cases h.symm.trans he
    exact .advanced
  · cases h.symm.trans he
    exact .wroteReg a v
  · cases h.symm.trans he
    exact .stored hi addr v m hm
  · cases h.symm.trans he
    exact .halted hi
  · exact handlerEffect_of_output (.inl rfl) ((length_utf8 v).2.trans (by decide)) (he.symm.trans h)
  · exact handlerEffect_of_output (.inr rfl) (length_decimal_le _) (he.symm.trans h)

/-- A step that answers a next state: nothing in a terminal state, a failed fetch, or the effect of the fetched instruction's
handler (R80, R91). -/
theorem step_next_cases (h : step s = .next t) :
    (s.status ≠ .running ∧ t = s) ∨
    (∃ k, s.status = .running ∧ fetch s = .error k ∧ t = s.setStatus (.failed k)) ∨
    (∃ i, s.status = .running ∧ fetch s = .ok i ∧ HandlerEffect i s t) := by
  obtain ⟨hstop, he⟩ | ⟨k, hrun, hf, he⟩ | ⟨i, hrun, hf, he⟩ := step_cases s
  · cases h.symm.trans he
    exact .inl ⟨hstop, rfl⟩
  · cases h.symm.trans he
    exact .inr (.inl ⟨k, hrun, hf, rfl⟩)
  · exact .inr (.inr ⟨i, hrun, hf, handlerEffect_of_exec (he.symm.trans h)⟩)

/-! ## What every effect keeps -/

/-- Every effect keeps the invariant: a word write keeps the canonical form, and no handler raises HaltedTwice (R31, R208). -/
theorem HandlerEffect.inv (h : HandlerEffect i s t) (hs : Inv s) : Inv t := by
  obtain ⟨hwf, hstatus⟩ := hs
  cases h with
  | raised k hk => exact ⟨hwf, fun hst => by cases hst; cases hk⟩
  | advanced | wroteReg | wrote => exact ⟨hwf, hstatus⟩
  | stored _ _ _ _ hm => exact ⟨Memory.writeWord_wf hwf hm, hstatus⟩
  | halted | writeFailed => exact ⟨hwf, nofun⟩

/-- Only the store's effect changes memory (R40, R48). -/
theorem HandlerEffect.opcode_eq_store (h : HandlerEffect i s t) (hm : t.mem ≠ s.mem) : i.opcode = .store := by
  cases h with
  | stored hi => exact hi
  | raised | advanced | wroteReg | halted | wrote | writeFailed => exact absurd rfl hm

/-- Besides the IP every effect leaves all registers but one (R95). -/
theorem HandlerEffect.writes_at_most_one_register (h : HandlerEffect i s t) :
    ∃ a : RegIx, ∀ r : RegIx, r ≠ 0 → r ≠ a → t.reg r = s.reg r := by
  cases h with
  | wroteReg a v => exact ⟨a, fun r h0 ha => (State.reg_setReg_ne _ ha v).trans (s.reg_advanceIp_ne h0 _)⟩
  | raised | advanced | stored | halted | wrote | writeFailed => exact ⟨0, fun r h0 _ => s.reg_advanceIp_ne h0 _⟩

/-- Every effect appends to the trace, and only an output instruction's appends a byte (R216). -/
theorem HandlerEffect.appends (h : HandlerEffect i s t) :
    ∃ bytes : List Byte, t.out = s.out ++ bytes ∧ bytes.length ≤ 11 ∧
      (bytes ≠ [] → i.opcode = .outputChar ∨ i.opcode = .outputNumber) := by
  cases h with
  | wrote hi bytes hlen | writeFailed hi bytes hlen => exact ⟨bytes, rfl, hlen, fun _ => hi⟩
  | raised | advanced | wroteReg | stored | halted => exact ⟨[], (List.append_nil _).symm, by simp, fun hne => absurd rfl hne⟩

/-- A running machine is halted by the effect of halt and by no other (R90). -/
theorem HandlerEffect.eq_halt (h : HandlerEffect i s t) (hrun : s.status = .running) (ht : t.status = .halted) :
    i = .halt := by
  cases h with
  | halted hi => exact hi
  | advanced | wroteReg | stored | wrote => cases hrun.symm.trans ht
  | raised | writeFailed => cases ht

/-- A running machine that fails in a handler keeps memory and its registers, with the IP advanced; OutputFailed aside it keeps
the trace and the sink too (R87, R210). -/
theorem HandlerEffect.of_failed {k : ErrorKind} (h : HandlerEffect i s t) (hrun : s.status = .running)
    (ht : t.status = .failed k) :
    t.mem = s.mem ∧ (∀ r : RegIx, r ≠ 0 → t.reg r = s.reg r) ∧ t.ip = s.ip + BitVec.ofNat 32 i.width ∧
      (k.ofHandler = true ∧ t.out = s.out ∧ t.sink = s.sink ∨ k = .outputFailed ∧ s.out <+: t.out) := by
  have regs (r : RegIx) (hr : r ≠ 0) := s.reg_advanceIp_ne hr i.width
  have ip := s.ip_advanceIp i.width
  cases h with
  | raised k' hk =>
    cases ht
    exact ⟨rfl, regs, ip, .inl ⟨hk, rfl, rfl⟩⟩
  | writeFailed =>
    cases ht
    exact ⟨rfl, regs, ip, .inr ⟨rfl, List.prefix_append _ _⟩⟩
  | advanced | wroteReg | stored | wrote => cases hrun.symm.trans ht
  | halted => cases ht

/-! ## The obligations -/

/-- Settles O14: a failed fetch records one of its two errors, and every effect of a handler keeps the invariant. -/
theorem stepKeepsInvariant : Obligations.StepKeepsInvariant := by
  intro s t hs h
  obtain ⟨-, rfl⟩ | ⟨k, -, hfetch, rfl⟩ | ⟨i, -, -, he⟩ := step_next_cases h
  · exact hs
  · obtain rfl | rfl := eq_of_fetch_eq_error hfetch <;> exact ⟨hs.1, nofun⟩
  · exact he.inv hs

/-- Settles O11: of all the outcomes of a handler only a write that the sink never answers is no next state. -/
theorem stepEndsUnlessSinkNeverAnswers : Obligations.StepEndsUnlessSinkNeverAnswers := by
  intro s
  obtain ⟨-, h⟩ | ⟨k, -, -, h⟩ | ⟨i, hrun, -, h⟩ := step_cases s
  · exact .inl ⟨_, h⟩
  · exact .inl ⟨_, h⟩
  rw [h]
  have write {bytes : List Byte} (ho : exec i s = (s.advanceIp i.width).output bytes) :
      (∃ t, exec i s = .next t) ∨
        (exec i s = .fault .sinkNeverAnswers ∧ s.status = .running ∧ s.sink.answer = .never) := by
    rw [ho]
    obtain ⟨-, h⟩ | ⟨k, -, h⟩ | ⟨hnever, h⟩ := (s.advanceIp i.width).output_cases bytes
    · exact .inl ⟨_, h⟩
    · exact .inl ⟨_, h⟩
    · exact .inr ⟨h, hrun, hnever⟩
  obtain ⟨_, -, he⟩ | ⟨-, he⟩ | ⟨-, _, _, he⟩ | ⟨-, _, _, _, -, he⟩ | ⟨-, he⟩ | ⟨_, -, _, -, he⟩ | ⟨_, -, _, he⟩ := exec_cases i s
  · exact .inl ⟨_, he⟩
  · exact .inl ⟨_, he⟩
  · exact .inl ⟨_, he⟩
  · exact .inl ⟨_, he⟩
  · exact .inl ⟨_, he⟩
  · exact write he
  · exact write he

/-- The byte 0x07 inside memory is fetched as a halt: its one byte always fits (R64). -/
theorem fetch_of_halt_byte (hip : s.ip.toNat < Config.memorySize) (hbyte : s.mem.readByte s.ip.toNat = 0x07) :
    fetch s = .ok .halt := by
  refine fetch_eq_ok_iff.2 ⟨s.mem.readBytes (s.ip.toNat + 1) (Config.memorySize - (s.ip.toNat + 1)), ?_⟩
  rw [bytesAtIp_eq_cons hip, hbyte]
  exact decodeReadsBackEncode .halt _

/-- Settles O12: among the effects only halt's sets Halted, and the byte 0x07 is always fetched as halt. -/
theorem haltedExactlyByHaltOpcode : Obligations.HaltedExactlyByHaltOpcode := by
  intro s t hrun h
  constructor
  · intro ht
    obtain ⟨hstop, -⟩ | ⟨k, -, -, rfl⟩ | ⟨i, -, hfetch, he⟩ := step_next_cases h
    · exact absurd hrun hstop
    · cases ht
    · cases he.eq_halt hrun ht
      exact opcode_of_fetch_eq_ok hfetch
  · rintro ⟨hip, hbyte⟩
    cases h.symm.trans (step_of_fetch_eq_ok hrun (fetch_of_halt_byte hip hbyte))
    rfl

/-- Settles O13: a failed fetch changes only the status, and a handler that fails has made the advance by the width of the
instruction decoded at the IP. -/
theorem failedStepLeavesOnlyTheAdvance : Obligations.FailedStepLeavesOnlyTheAdvance := by
  intro s t k hrun h ht
  obtain ⟨hstop, -⟩ | ⟨k', -, hfetch, rfl⟩ | ⟨i, -, hfetch, he⟩ := step_next_cases h
  · exact absurd hrun hstop
  · cases ht
    obtain rfl | rfl := eq_of_fetch_eq_error hfetch <;> exact ⟨rfl, fun _ _ => rfl, rfl, rfl, rfl⟩
  · obtain ⟨rest, hdecode⟩ := fetch_eq_ok_iff.1 hfetch
    obtain ⟨hmem, hregs, hip, ⟨hk, hout, hsink⟩ | ⟨rfl, hout⟩⟩ := he.of_failed hrun ht
    · refine ⟨hmem, hregs, ?_⟩
      cases k with
      | registerOutOfRange | addressOutOfBounds | invalidCodePoint => exact ⟨⟨i, rest, hdecode, hip⟩, hout, hsink⟩
      | programCounterOutOfBounds | unknownOpcode | outputFailed | haltedTwice => cases hk
    · exact ⟨hmem, hregs, ⟨i, rest, hdecode, hip⟩, hout⟩

/-- Settles O16: the effects that append are those of the two output opcodes, whose texts have at most 11 bytes. -/
theorem stepOnlyAppendsOutput : Obligations.StepOnlyAppendsOutput := by
  intro s t h
  obtain ⟨-, rfl⟩ | ⟨k, -, -, rfl⟩ | ⟨i, hrun, hfetch, he⟩ := step_next_cases h
  · exact ⟨[], by simp⟩
  · exact ⟨[], by simp⟩
  · obtain ⟨bytes, hout, hlen, hop⟩ := he.appends
    refine ⟨bytes, hout, hlen, fun hne => ⟨hrun, ?_⟩⟩
    rw [(opcode_of_fetch_eq_ok hfetch).2]
    exact (hop hne).imp (congrArg Opcode.toByte) (congrArg Opcode.toByte)

/-- Settles O17: the one effect that changes memory is the store's. -/
theorem onlyStoreChangesMemory : Obligations.OnlyStoreChangesMemory := by
  intro s t h hmem
  obtain ⟨-, rfl⟩ | ⟨k, -, -, rfl⟩ | ⟨i, hrun, hfetch, he⟩ := step_next_cases h
  · exact absurd rfl hmem
  · exact absurd rfl hmem
  · exact ⟨hrun, (opcode_of_fetch_eq_ok hfetch).2.trans (congrArg Opcode.toByte (he.opcode_eq_store hmem))⟩

/-- Settles O18: every effect of a handler writes at most one register besides the IP. -/
theorem stepWritesAtMostOneRegister : Obligations.StepWritesAtMostOneRegister := by
  intro s t h
  obtain ⟨-, rfl⟩ | ⟨k, -, -, rfl⟩ | ⟨i, -, -, he⟩ := step_next_cases h
  · exact ⟨0, fun _ _ _ => rfl⟩
  · exact ⟨0, fun _ _ _ => rfl⟩
  · exact he.writes_at_most_one_register

end Sys2Proof.Machine
end

