-- ==== Sys2Proof/Proofs/TraceIndependence.lean ====
section
/-! PROOFS. The output trace is never read back (spec/10_state.md R30): a step commutes with putting bytes in front of the
trace, so it is the step of the same state with an empty trace. -/

namespace Sys2Proof.Machine

/-- The state with bytes put in front of its trace. -/
def State.prependOut (p : List Byte) (s : State) : State := { s with out := p ++ s.out }

/-- The outcome with bytes put in front of the trace of its next state. -/
def prependOutcome (p : List Byte) : Host.Outcome State Fault Refusal → Host.Outcome State Fault Refusal
  | .next t => .next (t.prependOut p)
  | .fault r => .fault r
  | .refused r => .refused r

theorem prependOutcome_eq_next {p : List Byte} {o : Host.Outcome State Fault Refusal} {t : State}
    (h : prependOutcome p o = .next t) : ∃ t₀, o = .next t₀ ∧ t = t₀.prependOut p := by
  cases o with
  | next t₀ => exact ⟨t₀, rfl, by cases h; rfl⟩
  | fault | refused => cases h

variable (p : List Byte) (s : State)

/-- Every trace is its bytes put in front of the empty trace. -/
theorem State.eq_prependOut_empty (o : List Byte) : { s with out := o } = State.prependOut o { s with out := [] } := by
  simp [State.prependOut]

/-! ## The operations that do not touch the trace -/

theorem State.prependOut_mem : (s.prependOut p).mem = s.mem := rfl
theorem State.prependOut_status : (s.prependOut p).status = s.status := rfl
theorem State.prependOut_sink : (s.prependOut p).sink = s.sink := rfl
theorem State.reg_prependOut (i : RegIx) : (s.prependOut p).reg i = s.reg i := rfl
theorem State.advanceIp_prependOut (n : Nat) : (s.prependOut p).advanceIp n = (s.advanceIp n).prependOut p := rfl

theorem State.withReg_prependOut (a : Byte) {k k' : RegIx → Host.Outcome State Fault Refusal}
    (hk : ∀ i, k' i = prependOutcome p (k i)) : (s.prependOut p).withReg a k' = prependOutcome p (s.withReg a k) := by
  unfold State.withReg
  cases regIndex? a with
  | some i => exact hk i
  | none => rfl

theorem State.withRegs2_prependOut (a b : Byte) {k k' : RegIx → RegIx → Host.Outcome State Fault Refusal}
    (hk : ∀ i j, k' i j = prependOutcome p (k i j)) :
    (s.prependOut p).withRegs2 a b k' = prependOutcome p (s.withRegs2 a b k) :=
  s.withReg_prependOut p a fun i => s.withReg_prependOut p b (hk i)

theorem State.withRegs3_prependOut (a b c : Byte) {k k' : RegIx → RegIx → RegIx → Host.Outcome State Fault Refusal}
    (hk : ∀ i j l, k' i j l = prependOutcome p (k i j l)) :
    (s.prependOut p).withRegs3 a b c k' = prependOutcome p (s.withRegs3 a b c k) :=
  s.withReg_prependOut p a fun i => s.withRegs2_prependOut p b c (hk i)

/-! ## The writes to the sink, the handlers and the step -/

theorem State.deliver_prependOut (bytes : List Byte) : (s.prependOut p).deliver bytes = (s.deliver bytes).prependOut p := by
  simp only [State.deliver, State.prependOut, List.append_assoc]

theorem State.output_prependOut (bytes : List Byte) :
    (s.prependOut p).output bytes = prependOutcome p (s.output bytes) := by
  unfold State.output
  rw [State.prependOut_sink]
  cases s.sink.answer with
  | ok => exact congrArg Host.Outcome.next (s.deliver_prependOut p bytes)
  | fail k => exact congrArg (State.raise · .outputFailed) (s.deliver_prependOut p (bytes.take k))
  | never => rfl

/-- A handler commutes with putting bytes in front of the trace: what it reads is not the trace. -/
theorem exec_prependOut (i : Instr) : exec i (s.prependOut p) = prependOutcome p (exec i s) := by
  cases i with
  | moveIf a b c =>
    exact (s.advanceIp 4).withRegs3_prependOut p a b c fun i j l =>
      congrArg Host.Outcome.next (apply_ite (State.prependOut p) ((s.advanceIp 4).reg l ≠ 0)
        ((s.advanceIp 4).setReg i ((s.advanceIp 4).reg j)) (s.advanceIp 4)).symm
  | store a b =>
    refine (s.advanceIp 3).withRegs2_prependOut p a b fun i j => ?_
    simp only [State.advanceIp_prependOut, State.prependOut_mem, State.reg_prependOut]
    cases (s.advanceIp 3).mem.writeWord ((s.advanceIp 3).reg i) ((s.advanceIp 3).reg j) <;> rfl
  | load a b =>
    refine (s.advanceIp 3).withRegs2_prependOut p a b fun i j => ?_
    simp only [State.advanceIp_prependOut, State.prependOut_mem, State.reg_prependOut]
    cases (s.advanceIp 3).mem.readWord ((s.advanceIp 3).reg j) <;> rfl
  | loadImmediate a imm => exact (s.advanceIp 4).withReg_prependOut p a fun _ => rfl
  | subtract a b c => exact (s.advanceIp 4).withRegs3_prependOut p a b c fun _ _ _ => rfl
  | outputChar a =>
    refine (s.advanceIp 2).withReg_prependOut p a fun i => ?_
    simp only [State.advanceIp_prependOut, State.reg_prependOut, State.output_prependOut, apply_ite (prependOutcome p)]
    rfl
  | halt => rfl
  | outputNumber a => exact (s.advanceIp 2).withReg_prependOut p a fun _ => (s.advanceIp 2).output_prependOut p _

/-- The fetch reads the registers and memory alone. -/
theorem fetch_prependOut : fetch (s.prependOut p) = fetch s := rfl

/-- A step commutes with putting bytes in front of the trace. -/
theorem step_prependOut : step (s.prependOut p) = prependOutcome p (step s) := by
  unfold step
  rw [State.prependOut_status, fetch_prependOut]
  cases s.status with
  | running =>
    cases fetch s with
    | ok i => exact exec_prependOut p s i
    | error k => rfl
  | halted | failed => rfl

/-- Settles O19: both steps are the step from the empty trace with the old trace put in front. -/
theorem outputTraceIsNeverReadBack : Obligations.OutputTraceIsNeverReadBack := by
  intro s t o h
  have step_out (o : List Byte) := (congrArg step (s.eq_prependOut_empty o)).trans (step_prependOut o _)
  obtain ⟨t₀, h₀, rfl⟩ := prependOutcome_eq_next ((step_out s.out).symm.trans h)
  refine ⟨t₀.prependOut o, t₀.out, ?_, rfl, rfl, rfl, rfl, rfl, rfl⟩
  rw [step_out o, h₀]
  rfl

end Sys2Proof.Machine
end

