-- ==== Sys2Proof/Proofs/MemoryAccess.lean ====
section
/-! PROOFS. Register and memory access: the bank's write accessor, bytes written and read back, and the little-endian word
(spec/10_state.md R23, spec/20_memory.md R41 to R46). -/

namespace Sys2Proof.Machine

variable {m m' : Memory} {addr v : Word} {a : Nat} {bs : List Byte}

/-! ## Registers -/

/-- A byte of at most 15 names the register of that number (R23). -/
theorem regIndex_of_le_fifteen {r : Byte} (h : r.toNat ≤ 15) :
    ∃ i : RegIx, i.val = r.toNat ∧ regIndex? r = some i :=
  ⟨⟨r.toNat, by simp only [Config.numRegs]; omega⟩, rfl, dif_pos _⟩

/-- Settles O20: the byte names one register or none, and a register write changes that register alone. -/
theorem setRegisterWritesOneOrFails : Obligations.SetRegisterWritesOneOrFails := by
  intro s r v
  constructor
  · intro hr
    obtain ⟨i, hi, hindex⟩ := regIndex_of_le_fifteen hr
    exact ⟨s.setReg i v, i, by rw [State.setRegister, hindex], hi, s.reg_setReg_self i v,
      fun j hj => s.reg_setReg_ne hj v, rfl, rfl, rfl, rfl⟩
  · intro hr
    rw [State.setRegister, regIndex_eq_none_iff.2 (regByteOk_eq_false_iff.2 hr)]

/-! ## Strings of bytes -/

/-- Inside memory a written string reads back byte by byte, and every other byte is as before. -/
theorem Memory.readByte_writeBytes (hm : m.wf = true) (hfits : a + bs.length ≤ Config.memorySize) (x : Nat) :
    (m.writeBytes a bs).readByte x = if a ≤ x ∧ x < a + bs.length then bs.getD (x - a) 0 else m.readByte x := by
  induction bs generalizing m a with
  | nil => simp [Memory.writeBytes, show ¬ (a ≤ x ∧ x < a) by omega]
  | cons b bs ih =>
    rw [List.length_cons] at hfits
    have ha : a < Config.memorySize := by omega
    rw [Memory.writeBytes, if_pos ha, ih (Memory.writeByte_wf hm ha) (by omega), Memory.readByte_writeByte hm,
      List.length_cons]
    by_cases hxa : x = a
    · simp [hxa]
    by_cases hx : a + 1 ≤ x ∧ x < a + 1 + bs.length
    · rw [if_pos hx, if_pos (by omega), show x - a = x - (a + 1) + 1 by omega, List.getD_cons_succ]
    · rw [if_neg hx, if_neg hxa, if_neg (by omega)]

/-- A string written inside memory is read back from where it was written. -/
theorem Memory.readBytes_writeBytes (hm : m.wf = true) (hfits : a + bs.length ≤ Config.memorySize) :
    (m.writeBytes a bs).readBytes a bs.length = bs := by
  refine List.ext_getElem? fun k => ?_
  rw [Memory.getElem?_readBytes]
  split_ifs with hk
  · rw [Memory.readByte_writeBytes hm hfits, if_pos (by omega), Nat.add_sub_cancel_left, List.getD_eq_getElem _ _ hk,
      List.getElem?_eq_getElem hk]
  · exact (List.getElem?_eq_none (by omega)).symm

/-- What is read can be read in two parts. -/
theorem Memory.readBytes_add (m : Memory) (a n k : Nat) :
    m.readBytes a (n + k) = m.readBytes a n ++ m.readBytes (a + n) k := by
  induction n generalizing a with
  | zero => simp [Memory.readBytes]
  | succ n ih =>
    rw [Nat.add_right_comm, Memory.readBytes, ih, Memory.readBytes, Nat.add_right_comm, List.cons_append, Nat.add_assoc]

/-! ## Words -/

/-- The four bytes of a word, the lowest address first (R41). -/
def bytesOf (v : Word) : List Byte := [byteOf v 0, byteOf v 1, byteOf v 2, byteOf v 3]

theorem length_bytesOf (v : Word) : (bytesOf v).length = 4 := rfl

theorem getD_bytesOf (v : Word) {k : Nat} (hk : k < 4) : (bytesOf v).getD k 0 = BitVec.ofNat 8 (v.toNat / 256 ^ k) := by
  match k with
  | 0 | 1 | 2 | 3 => exact byteOf_eq v _

theorem wordFits_eq_false_iff : wordFits addr = false ↔ Config.memorySize < addr.toNat + 4 := by
  simp [wordFits]

/-- A word write that fits is the write of the word's four bytes (R43). -/
theorem Memory.writeWord_of_fits (hfits : addr.toNat + 4 ≤ Config.memorySize) (m : Memory) (v : Word) :
    m.writeWord addr v = .ok (m.writeBytes addr.toNat (bytesOf v)) := by
  simp only [Config.memorySize] at hfits
  simp [Memory.writeWord, wordFits_iff.2 (show addr.toNat ≤ 4092 by omega), bytesOf, Memory.writeBytes, Config.memorySize,
    show addr.toNat < 4096 by omega, show addr.toNat + 1 < 4096 by omega, show addr.toNat + 1 + 1 < 4096 by omega,
    show addr.toNat + 1 + 1 + 1 < 4096 by omega]

/-- A word that does not fit is not written (R43, R44). -/
theorem Memory.writeWord_of_not_fits (h : Config.memorySize < addr.toNat + 4) (m : Memory) (v : Word) :
    m.writeWord addr v = .error .addressOutOfBounds := by
  rw [Memory.writeWord, wordFits_eq_false_iff.2 h]
  rfl

/-- The bytes of memory after a word write (R43). -/
theorem Memory.readByte_writeWord (hm : m.wf = true) (hfits : addr.toNat + 4 ≤ Config.memorySize) (v : Word) (x : Nat) :
    (m.writeBytes addr.toNat (bytesOf v)).readByte x =
      if addr.toNat ≤ x ∧ x < addr.toNat + 4 then BitVec.ofNat 8 (v.toNat / 256 ^ (x - addr.toNat)) else m.readByte x := by
  rw [Memory.readByte_writeBytes hm hfits, length_bytesOf]
  split_ifs with hx
  · exact getD_bytesOf v (by omega)
  · rfl

/-- A word that fits is read from its four bytes (R42). -/
theorem Memory.readWord_of_fits (hfits : addr.toNat + 4 ≤ Config.memorySize) (m : Memory) :
    m.readWord addr = .ok (wordOfBytes (m.readByte addr.toNat) (m.readByte (addr.toNat + 1)) (m.readByte (addr.toNat + 2))
      (m.readByte (addr.toNat + 3))) := by
  rw [Memory.readWord, wordFits, decide_eq_true hfits, if_pos rfl]

/-- A word that does not fit is not read (R42, R44). -/
theorem Memory.readWord_of_not_fits (h : Config.memorySize < addr.toNat + 4) (m : Memory) :
    m.readWord addr = .error .addressOutOfBounds := by
  rw [Memory.readWord, wordFits_eq_false_iff.2 h]
  rfl

/-- Settles O22: the word of four bytes is their sum by weights. -/
theorem wordReadIsLittleEndian : Obligations.WordReadIsLittleEndian :=
  fun m _ => ⟨fun hfits => ⟨_, Memory.readWord_of_fits hfits m, toNat_wordOfBytes _ _ _ _⟩,
    fun h => Memory.readWord_of_not_fits h m⟩

/-- A written word reads back (R43). -/
theorem Memory.readWord_writeBytes_bytesOf (hm : m.wf = true) (hfits : addr.toNat + 4 ≤ Config.memorySize) (v : Word) :
    (m.writeBytes addr.toNat (bytesOf v)).readWord addr = .ok v := by
  have byte {k : Nat} (hk : k < 4) :
      (m.writeBytes addr.toNat (bytesOf v)).readByte (addr.toNat + k) = (bytesOf v).getD k 0 := by
    rw [Memory.readByte_writeBytes hm hfits, if_pos ⟨by omega, Nat.add_lt_add_left hk _⟩, Nat.add_sub_cancel_left]
  have first := byte (show 0 < 4 by decide)
  rw [Nat.add_zero] at first
  rw [Memory.readWord_of_fits hfits, first, byte (show 1 < 4 by decide), byte (show 2 < 4 by decide),
    byte (show 3 < 4 by decide)]
  exact congrArg Except.ok (wordOfBytes_byteOf v)

/-- Settles O21: a word write that fits is the write of the word's four bytes, which are the word's digits to the base 256. -/
theorem wordWriteIsLittleEndianAndReadsBack : Obligations.WordWriteIsLittleEndianAndReadsBack :=
  fun m _ v hm => ⟨fun hfits => ⟨_, Memory.writeWord_of_fits hfits m v, Memory.readWord_writeBytes_bytesOf hm hfits v,
    Memory.readByte_writeWord hm hfits v⟩, fun h => Memory.writeWord_of_not_fits h m v⟩

end Sys2Proof.Machine
end

