-- ==== Sys2Proof/Proofs/Handlers.lean ====
section
/-! PROOFS. The handlers one by one, on operand bytes that name registers and on one that does not: move-if, store, load, the two
output instructions and halt (spec/41_move_and_memory.md, spec/43_output_and_halt.md); load-immediate and subtract stand in
files of their own. -/

namespace Sys2Proof.Machine

variable {s t : State} {i : Instr}

/-! ## Move and memory, on operand bytes that name registers -/

/-- move-if reads its operands after the advance (R88, R100). -/
theorem exec_moveIf_regByte (s : State) (a b c : RegIx) :
    exec (.moveIf (regByte a) (regByte b) (regByte c)) s =
      .next (if operandValue 4 s c ≠ 0 then (s.advanceIp 4).setReg a (operandValue 4 s b) else s.advanceIp 4) := by
  simp only [← reg_advanceIp_eq_operandValue]
  exact (s.advanceIp 4).withRegs3_regByte a b c _

/-- store to an address where the word fits (R101). -/
theorem exec_store_regByte_of_fits {a : RegIx} (hfits : (operandValue 3 s a).toNat + 4 ≤ Config.memorySize) (b : RegIx) :
    exec (.store (regByte a) (regByte b)) s =
      .next ((s.advanceIp 3).setMem (s.mem.writeBytes (operandValue 3 s a).toNat (bytesOf (operandValue 3 s b)))) := by
  simp only [← reg_advanceIp_eq_operandValue] at hfits ⊢
  refine ((s.advanceIp 3).withRegs2_regByte a b _).trans ?_
  rw [State.advanceIp_mem, Memory.writeWord_of_fits hfits]

/-- store to an address where the word does not fit (R101, R204). -/
theorem exec_store_regByte_of_not_fits {a : RegIx} (h : Config.memorySize < (operandValue 3 s a).toNat + 4) (b : RegIx) :
    exec (.store (regByte a) (regByte b)) s = .next ((s.advanceIp 3).setStatus (.failed .addressOutOfBounds)) := by
  rw [← reg_advanceIp_eq_operandValue] at h
  refine ((s.advanceIp 3).withRegs2_regByte a b _).trans ?_
  rw [State.advanceIp_mem, Memory.writeWord_of_not_fits h]
  rfl

/-- load from an address where the word fits (R102). -/
theorem exec_load_regByte_of_readWord {b : RegIx} {v : Word} (h : s.mem.readWord (operandValue 3 s b) = .ok v) (a : RegIx) :
    exec (.load (regByte a) (regByte b)) s = .next ((s.advanceIp 3).setReg a v) := by
  rw [← reg_advanceIp_eq_operandValue] at h
  refine ((s.advanceIp 3).withRegs2_regByte a b _).trans ?_
  rw [State.advanceIp_mem, h]

/-- load from an address where the word does not fit (R102, R204). -/
theorem exec_load_regByte_of_not_fits {b : RegIx} (h : Config.memorySize < (operandValue 3 s b).toNat + 4) (a : RegIx) :
    exec (.load (regByte a) (regByte b)) s = .next ((s.advanceIp 3).setStatus (.failed .addressOutOfBounds)) := by
  rw [← reg_advanceIp_eq_operandValue] at h
  refine ((s.advanceIp 3).withRegs2_regByte a b _).trans ?_
  rw [State.advanceIp_mem, Memory.readWord_of_not_fits h]
  rfl

/-! ## Operand bytes that name no register -/

/-- Validation of two operand bytes of which one names no register, whichever it is (R86). -/
theorem State.withRegs2_of_fifteen_lt (s : State) {a b : Byte} (h : 15 < a.toNat ∨ 15 < b.toNat)
    (k : RegIx → RegIx → Host.Outcome State Fault Refusal) :
    s.withRegs2 a b k = .next (s.setStatus (.failed .registerOutOfRange)) := by
  obtain ⟨i, j, hi, hj, -⟩ | ⟨-, hfail⟩ := s.withRegs2_cases a b k
  · simp only [← regByteOk_eq_false_iff, ← regIndex_eq_none_iff, hi, hj, reduceCtorEq, or_self] at h
  · exact hfail

/-- An instruction is ill-formed by one of its operand bytes (R31, R86). -/
theorem wellFormed_eq_false_iff : i.wellFormed = false ↔ ∃ r ∈ i.regOperands, 15 < r.toNat := by
  simp only [Instr.wellFormed, List.all_eq_false, Bool.not_eq_true, regByteOk_eq_false_iff]

/-- An ill-formed instruction fails in the validation, right after its advance (R86, R203). -/
theorem exec_of_wellFormed_eq_false (s : State) (h : i.wellFormed = false) :
    exec i s = .next ((s.advanceIp i.width).setStatus (.failed .registerOutOfRange)) := by
  rw [wellFormed_eq_false_iff] at h
  cases i with
  | moveIf a b c => exact (s.advanceIp 4).withRegs3_of_fifteen_lt (by simpa [Instr.regOperands] using h) _
  | store a b => exact (s.advanceIp 3).withRegs2_of_fifteen_lt (by simpa [Instr.regOperands] using h) _
  | load a b => exact (s.advanceIp 3).withRegs2_of_fifteen_lt (by simpa [Instr.regOperands] using h) _
  | loadImmediate a imm =>
    exact exec_loadImmediate_of_regByteOk_eq_false s
      (regByteOk_eq_false_iff.2 (by simpa [Instr.regOperands] using h)) imm
  | subtract a b c => exact exec_subtract_of_fifteen_lt s (by simpa [Instr.regOperands] using h)
  | outputChar a | outputNumber a =>
    exact (s.advanceIp 2).withReg_of_regByteOk_eq_false (regByteOk_eq_false_iff.2 (by simpa [Instr.regOperands] using h)) _
  | halt => simp [Instr.regOperands] at h

/-- Such a failure changes only the status past the advance (R86, R210). -/
theorem failsAfterAdvance_exec_of_fifteen_lt (s : State) (h : ∃ r ∈ i.regOperands, 15 < r.toNat) :
    FailsAfterAdvance .registerOutOfRange i.width s (exec i s) := by
  rw [exec_of_wellFormed_eq_false s (wellFormed_eq_false_iff.2 h)]
  exact failsAfterAdvance_setStatus _ _ s

/-! ## Output, on an operand byte that names a register -/

/-- output-char of a scalar value is one write of its UTF-8 (R150). -/
theorem exec_outputChar_regByte_of_isScalar {a : RegIx} (h : isScalar (operandValue 2 s a) = true) :
    exec (.outputChar (regByte a)) s = (s.advanceIp 2).output (utf8 (operandValue 2 s a)) := by
  rw [← reg_advanceIp_eq_operandValue] at h ⊢
  exact ((s.advanceIp 2).withReg_regByte a _).trans (if_pos h)

/-- output-char of any other value raises InvalidCodePoint (R205). -/
theorem exec_outputChar_regByte_of_not_isScalar {a : RegIx} (h : isScalar (operandValue 2 s a) = false) :
    exec (.outputChar (regByte a)) s = .next ((s.advanceIp 2).setStatus (.failed .invalidCodePoint)) := by
  rw [← reg_advanceIp_eq_operandValue] at h
  exact ((s.advanceIp 2).withReg_regByte a _).trans (if_neg (by simp [h]))

/-- output-number is one write of the decimal text (R154). -/
theorem exec_outputNumber_regByte (s : State) (a : RegIx) :
    exec (.outputNumber (regByte a)) s = (s.advanceIp 2).output (decimal (operandValue 2 s a).toInt) := by
  rw [← reg_advanceIp_eq_operandValue]
  exact (s.advanceIp 2).withReg_regByte a _

/-! ## Well-formed instructions -/

/-- A well-formed instruction's operand bytes name registers (R23, R31). -/
theorem wellFormed_iff : i.wellFormed = true ↔ ∀ r ∈ i.regOperands, ∃ j, r = regByte j := by
  have names {r : Byte} : regByteOk r = true ↔ ∃ j, r = regByte j :=
    regByteOk_iff.trans ⟨Exists.imp fun _ => eq_regByte_of_regIndex, fun ⟨j, hj⟩ => ⟨j, hj ▸ regIndex_regByte j⟩⟩
  simp only [Instr.wellFormed, List.all_eq_true, names]

/-- Past the validation no handler raises RegisterOutOfRange (R203). -/
theorem exec_status_ne_registerOutOfRange (hwf : i.wellFormed = true) (hs : s.status ≠ .failed .registerOutOfRange)
    (h : exec i s = .next t) : t.status ≠ .failed .registerOutOfRange := by
  have write {w : Nat} {bytes : List Byte} (ho : (s.advanceIp w).output bytes = .next t) :
      t.status ≠ .failed .registerOutOfRange := by
    obtain hst | hst := status_of_output_eq_next ho <;> rw [hst]
    · exact hs
    · nofun
  rw [wellFormed_iff] at hwf
  cases i with
  | moveIf a b c =>
    simp only [Instr.regOperands, List.forall_mem_cons] at hwf
    obtain ⟨⟨a, rfl⟩, ⟨b, rfl⟩, ⟨c, rfl⟩, -⟩ := hwf
    cases h.symm.trans (exec_moveIf_regByte s a b c)
    split_ifs
    · exact hs
    · exact hs
  | store a b =>
    simp only [Instr.regOperands, List.forall_mem_cons] at hwf
    obtain ⟨⟨a, rfl⟩, ⟨b, rfl⟩, -⟩ := hwf
    obtain hfits | hfar := le_or_gt ((operandValue 3 s a).toNat + 4) Config.memorySize
    · cases h.symm.trans (exec_store_regByte_of_fits hfits b)
      exact hs
    · cases h.symm.trans (exec_store_regByte_of_not_fits hfar b)
      nofun
  | load a b =>
    simp only [Instr.regOperands, List.forall_mem_cons] at hwf
    obtain ⟨⟨a, rfl⟩, ⟨b, rfl⟩, -⟩ := hwf
    obtain hfits | hfar := le_or_gt ((operandValue 3 s b).toNat + 4) Config.memorySize
    · cases h.symm.trans (exec_load_regByte_of_readWord (Memory.readWord_of_fits hfits s.mem) a)
      exact hs
    · cases h.symm.trans (exec_load_regByte_of_not_fits hfar a)
      nofun
  | loadImmediate a imm =>
    obtain ⟨a, rfl⟩ := hwf a (.head _)
    cases h.symm.trans (exec_loadImmediate_regByte s a imm)
    exact hs
  | subtract a b c =>
    simp only [Instr.regOperands, List.forall_mem_cons] at hwf
    obtain ⟨⟨a, rfl⟩, ⟨b, rfl⟩, ⟨c, rfl⟩, -⟩ := hwf
    cases h.symm.trans (exec_subtract_regByte s a b c)
    exact hs
  | outputChar a =>
    obtain ⟨a, rfl⟩ := hwf a (.head _)
    cases hscalar : isScalar (operandValue 2 s a) with
    | true => exact write ((exec_outputChar_regByte_of_isScalar hscalar).symm.trans h)
    | false =>
      cases h.symm.trans (exec_outputChar_regByte_of_not_isScalar hscalar)
      nofun
  | halt =>
    cases h
    nofun
  | outputNumber a =>
    obtain ⟨a, rfl⟩ := hwf a (.head _)
    exact write ((exec_outputNumber_regByte s a).symm.trans h)

section Sink
variable (w : Nat) (bytes : List Byte)

/-- A write after the advance to a sink that accepts it (R216). -/
theorem outputsAfterAdvance_output (h : s.sink.answer = .ok) :
    OutputsAfterAdvance bytes w s ((s.advanceIp w).output bytes) := by
  refine ⟨(s.advanceIp w).deliver bytes, ?_, reg_advanceIp_eq_operandValue w s, rfl, rfl, rfl, rfl⟩
  rw [State.output, State.advanceIp_sink, h]

/-- A write after the advance to a sink that fails it (R207, R216). -/
theorem outputFailsAfterAdvance_output {k : Nat} (h : s.sink.answer = .fail k) :
    OutputFailsAfterAdvance bytes k w s ((s.advanceIp w).output bytes) := by
  refine ⟨((s.advanceIp w).deliver (bytes.take k)).setStatus (.failed .outputFailed), ?_,
    reg_advanceIp_eq_operandValue w s, rfl, rfl, rfl, rfl⟩
  rw [State.output, State.advanceIp_sink, h]
  rfl

/-- A write to a sink that never answers it (R217). -/
theorem output_of_answer_never (h : s.sink.answer = .never) :
    (s.advanceIp w).output bytes = .fault .sinkNeverAnswers := by
  rw [State.output, State.advanceIp_sink, h]

end Sink

/-! ## The obligations -/

/-- Settles O23: the validation raises RegisterOutOfRange for an ill-formed instruction, and past the validation no handler
does. -/
theorem registerOutOfRangeExactlyWhenIllFormed : Obligations.RegisterOutOfRangeExactlyWhenIllFormed :=
  ⟨fun _ s h => failsAfterAdvance_exec_of_fifteen_lt s (wellFormed_eq_false_iff.1 h),
    fun _ _ _ => exec_status_ne_registerOutOfRange⟩

/-- Settles O24: the handler is the advance and, on a nonzero condition, one register write. -/
theorem moveIfMovesOnNonzeroCondition : Obligations.MoveIfMovesOnNonzeroCondition := by
  intro a b c s
  by_cases hc : operandValue 4 s c ≠ 0
  · refine ⟨_, (exec_moveIf_regByte s a b c).trans (congrArg _ (if_pos hc)), fun r => ?_,
      onlyRegsDiffer_setReg_advanceIp s a 4 _⟩
    rw [State.reg_setReg, reg_advanceIp_eq_operandValue]
    exact if_congr (iff_and_self.2 fun _ => hc) rfl rfl
  · refine ⟨_, (exec_moveIf_regByte s a b c).trans (congrArg _ (if_neg hc)), fun r => ?_, rfl, rfl, rfl, rfl⟩
    rw [reg_advanceIp_eq_operandValue, if_neg fun h => hc h.1]

/-- Settles O25: a byte that names no register fails the validation; otherwise the handler writes the word's four bytes if they
fit and raises AddressOutOfBounds if not. -/
theorem storeWritesWordAtRegisterA : Obligations.StoreWritesWordAtRegisterA := by
  refine ⟨fun _ _ => rfl, fun a b s h => ?_, fun a b s hm hfits => ?_, fun a b s h => ?_⟩
  · exact failsAfterAdvance_exec_of_fifteen_lt (i := .store a b) s (by simpa [Instr.regOperands] using h)
  · simp only [reg_advanceIp_eq_operandValue] at hfits ⊢
    exact ⟨_, exec_store_regByte_of_fits hfits b, reg_advanceIp_eq_operandValue 3 s,
      Memory.readByte_writeWord hm hfits _, rfl, rfl, rfl⟩
  · rw [reg_advanceIp_eq_operandValue] at h
    rw [exec_store_regByte_of_not_fits h]
    exact failsAfterAdvance_setStatus _ _ s

/-- Settles O26: a byte that names no register fails the validation; otherwise the handler writes the word it reads to one
register if the word fits and raises AddressOutOfBounds if not. -/
theorem loadReadsWordAtRegisterB : Obligations.LoadReadsWordAtRegisterB := by
  refine ⟨fun _ _ => rfl, fun a b s h => ?_, fun a b s hfits => ?_, fun a b s h => ?_⟩
  · exact failsAfterAdvance_exec_of_fifteen_lt (i := .load a b) s (by simpa [Instr.regOperands] using h)
  · refine ⟨_, exec_load_regByte_of_readWord (Memory.readWord_of_fits hfits s.mem) a, ?_,
      fun r hr => reg_setReg_advanceIp_ne s hr _ _, onlyRegsDiffer_setReg_advanceIp s a 3 _⟩
    rw [State.reg_setReg_self, toNat_wordOfBytes]
  · rw [exec_load_regByte_of_not_fits h]
    exact failsAfterAdvance_setStatus _ _ s

/-- Settles O29: past its checks output-char is one write to the sink. -/
theorem outputCharWritesUtf8 : Obligations.OutputCharWritesUtf8 := by
  intro a s hscalar hok
  rw [exec_outputChar_regByte_of_isScalar hscalar]
  exact outputsAfterAdvance_output 2 _ hok

/-- Settles O30: the value is tested before the sink is asked. -/
theorem outputCharRejectsNonScalar : Obligations.OutputCharRejectsNonScalar := by
  intro a s h
  rw [exec_outputChar_regByte_of_not_isScalar h]
  exact failsAfterAdvance_setStatus _ _ s

/-- Settles O31: the handler is the advance and the halt transition. -/
theorem haltAdvancesAndHalts : Obligations.HaltAdvancesAndHalts :=
  ⟨rfl, fun s => ⟨(s.advanceIp 1).setStatus .halted, rfl, rfl, reg_advanceIp_eq_operandValue 1 s, rfl, rfl, rfl⟩⟩

/-- Settles O33: both output instructions are one write to the sink, whose failure keeps what it delivered. -/
theorem failedWriteKeepsDeliveredBytes : Obligations.FailedWriteKeepsDeliveredBytes := by
  refine ⟨fun a s k hscalar hfail => ?_, fun a s k hfail => ?_⟩
  · rw [exec_outputChar_regByte_of_isScalar hscalar]
    exact outputFailsAfterAdvance_output 2 _ hfail
  · rw [exec_outputNumber_regByte]
    exact outputFailsAfterAdvance_output 2 _ hfail

/-- Settles O34: both output instructions are one write to the sink, which is stuck without an answer. -/
theorem silentSinkLeavesStepStuck : Obligations.SilentSinkLeavesStepStuck := by
  refine ⟨fun a s hscalar hnever => ?_, fun a s hnever => ?_⟩
  · rw [exec_outputChar_regByte_of_isScalar hscalar]
    exact output_of_answer_never 2 _ hnever
  · rw [exec_outputNumber_regByte]
    exact output_of_answer_never 2 _ hnever

end Sys2Proof.Machine
end

