-- ==== Sys2Proof/Proofs/OutputText.lean ====
section
/-! PROOFS. The text the output instructions write: scalar values and UTF-8 against the standard library's, and the form of the
signed decimal text and its reading (spec/43_output_and_halt.md R151, R152, R154, R155). -/

namespace Sys2Proof.Machine

/-! ## Scalar values and UTF-8 -/

/-- Settles O35: both ranges leave out exactly the surrogates below 0x110000. -/
theorem scalarValuesAreUnicodes : Obligations.ScalarValuesAreUnicodes := by
  intro v
  simp only [isScalar, Nat.isValidChar, Bool.and_eq_true, Bool.not_eq_true', Bool.and_eq_false_iff, decide_eq_true_eq,
    decide_eq_false_iff_not]
  omega

/-- The bits of a code point, as arithmetic (R152). -/
theorem toNat_codeBits (v : Word) (lo : Nat) {n : Nat} (hn : n ≤ 8) :
    (codeBits v lo n).toNat = v.toNat / 2 ^ lo % 2 ^ n := by
  have hlt : v.toNat / 2 ^ lo % 2 ^ n < 2 ^ 8 :=
    (Nat.mod_lt _ (Nat.two_pow_pos n)).trans_le (Nat.pow_le_pow_right (by decide) hn)
  rw [codeBits, BitVec.toNat_setWidth, BitVec.extractLsb'_toNat, Nat.shiftRight_eq_div_pow, Nat.mod_eq_of_lt hlt]

/-- A UTF-8 byte is its marker, whose low bits are free, plus the bits it carries (R152). -/
theorem marker_or_codeBits (marker : Byte) (v : Word) (lo : Nat) {n : Nat} (hn : n ≤ 8) (hfree : 2 ^ n ∣ marker.toNat) :
    marker ||| codeBits v lo n = BitVec.ofNat 8 (v.toNat / 2 ^ lo % 2 ^ n + marker.toNat) := by
  obtain ⟨c, hc⟩ := hfree
  have hbits : v.toNat / 2 ^ lo % 2 ^ n < 2 ^ n := Nat.mod_lt _ (Nat.two_pow_pos n)
  have hmarker : marker.toNat = c <<< n := by rw [hc, Nat.shiftLeft_eq, Nat.mul_comm]
  have hor : (marker ||| codeBits v lo n).toNat = v.toNat / 2 ^ lo % 2 ^ n + marker.toNat := by
    rw [BitVec.toNat_or, toNat_codeBits v lo hn, hmarker, Nat.or_comm, or_shiftLeft_of_lt hbits, Nat.add_comm]
  rw [← hor, BitVec.ofNat_toNat, BitVec.setWidth_eq]

/-- A one-byte code point is its own encoding (R152). -/
theorem codeBits_zero_eight (v : Word) : codeBits v 0 8 = BitVec.ofNat 8 v.toNat := by
  apply BitVec.eq_of_toNat_eq
  rw [toNat_codeBits v 0 le_rfl, BitVec.toNat_ofNat, pow_zero, Nat.div_one]

/-- Settles O36: length by length, the bytes are a marker plus the bits they carry. -/
theorem utf8MatchesStandardEncoder : Obligations.Utf8MatchesStandardEncoder := by
  intro c
  obtain ⟨v, hv⟩ : ∃ v : Word, v = BitVec.ofNat 32 c.toNat := ⟨_, rfl⟩
  have hc : c.val.toNat = v.toNat := by
    rw [hv, BitVec.toNat_ofNat]
    exact (Nat.mod_eq_of_lt c.val.toNat_lt).symm
  have continuation (lo : Nat) := marker_or_codeBits 0x80 v lo (n := 6) (by decide) (by decide)
  have last : 0x80 ||| codeBits v 0 6 = BitVec.ofNat 8 (v.toNat % 2 ^ 6 + 128) :=
    (continuation 0).trans (by rw [pow_zero, Nat.div_one]; rfl)
  rw [← hv, utf8, String.utf8EncodeChar, hc]
  split_ifs
  · rw [codeBits_zero_eight]
    rfl
  · rw [marker_or_codeBits 0xC0 v 6 (n := 5) (by decide) (by decide), last]
    rfl
  · rw [marker_or_codeBits 0xE0 v 12 (n := 4) (by decide) (by decide), continuation, last]
    rfl
  · rw [marker_or_codeBits 0xF0 v 18 (n := 3) (by decide) (by decide), continuation, continuation, last]
    rfl

/-! ## Decimal text -/

theorem digitByte_inj {d e : Nat} (hd : d < 10) (he : e < 10) : digitByte d = digitByte e ↔ d = e := by
  rw [← BitVec.toNat_inj, toNat_digitByte hd, toNat_digitByte he, Nat.add_left_cancel_iff]

/-- No digit is the minus sign (G3). -/
theorem digitByte_ne_minus {d : Nat} (hd : d < 10) : digitByte d ≠ 0x2D := by
  intro h
  have : 0x30 + d = 0x2D := (toNat_digitByte hd).symm.trans (congrArg BitVec.toNat h)
  omega

/-- The digits of a number begin with a digit, which is 0 only for the number 0 (R155, D10). -/
theorem digitsUpTo_eq_cons {fuel m : Nat} (hf : 0 < fuel) (h : m < 10 ^ fuel) :
    ∃ d ds, d < 10 ∧ digitsUpTo fuel m = digitByte d :: ds ∧ (d = 0 → m = 0) := by
  induction fuel generalizing m with
  | zero => omega
  | succ n ih =>
    unfold digitsUpTo
    split_ifs with hm
    · exact ⟨m, [], hm, rfl, id⟩
    · have hn : 0 < n := Nat.pos_of_ne_zero fun h0 => by subst h0; omega
      obtain ⟨d, ds, hd, heq, h0⟩ := ih (m := m / 10) hn (by rw [pow_succ] at h; omega)
      refine ⟨d, ds ++ [digitByte (m % 10)], hd, by rw [heq, List.cons_append], fun hd0 => ?_⟩
      have := h0 hd0
      omega

theorem digits_eq_cons {m : Nat} (h : m < 10 ^ 10) :
    ∃ d ds, d < 10 ∧ digits m = digitByte d :: ds ∧ (d = 0 → m = 0) := digitsUpTo_eq_cons (by decide) h

/-- The magnitude of a register value has at most ten digits. -/
theorem natAbs_toInt_lt (v : Word) : v.toInt.natAbs < 10 ^ 10 := by
  have := BitVec.two_mul_toInt_lt (x := v)
  have := BitVec.le_two_mul_toInt (x := v)
  omega

/-- The decimal text of a register value reads back as that value (R155). -/
theorem readDecimal_decimal_toInt (v : Word) : readDecimal (decimal v.toInt) = some v.toInt := by
  have hread : readDigits 0 (digits v.toInt.natAbs) = some v.toInt.natAbs :=
    readDigits_digitsUpTo (by decide) (natAbs_toInt_lt v)
  obtain ⟨d, ds, hd, heq, -⟩ := digits_eq_cons (natAbs_toInt_lt v)
  rw [heq] at hread
  unfold decimal
  split_ifs with hneg
  · rw [heq, readDecimal, if_pos rfl, if_neg (List.cons_ne_nil _ _), hread]
    exact congrArg some (show -(v.toInt.natAbs : Int) = v.toInt by omega)
  · rw [heq, readDecimal, if_neg (digitByte_ne_minus hd), hread]
    exact congrArg some (show (v.toInt.natAbs : Int) = v.toInt by omega)

/-- Settles O32: output-number is one write of the decimal text, which reads back. -/
theorem outputNumberWritesSignedDecimal : Obligations.OutputNumberWritesSignedDecimal := by
  intro a s hok
  refine ⟨readDecimal_decimal_toInt _, ?_⟩
  rw [exec_outputNumber_regByte]
  exact outputsAfterAdvance_output 2 _ hok

/-- Settles O37: the digits begin with a digit that is 0 only for the value 0, and the minus sign is no digit. -/
theorem decimalTextIsMinimal : Obligations.DecimalTextIsMinimal := by
  intro v
  obtain ⟨d, ds, hd, heq, h0⟩ := digits_eq_cons (natAbs_toInt_lt v)
  have hzero : digitByte d = 0x30 ↔ d = 0 := digitByte_inj hd (e := 0) (by decide)
  have hlen := length_decimal_le v.toInt
  by_cases hneg : v.toInt < 0
  · have htext : decimal v.toInt = 0x2D :: digitByte d :: ds := by rw [decimal, if_pos hneg, heq]
    rw [htext] at hlen ⊢
    refine ⟨by simp, hlen, by simp [hneg], by simp, fun _ h => ?_⟩
    have := h0 (hzero.1 (by simpa using h))
    omega
  · have htext : decimal v.toInt = digitByte d :: ds := by rw [decimal, if_neg hneg, heq]
    rw [htext] at hlen
    refine ⟨by simp [htext], by rwa [htext], ?_, fun h => ?_, fun h => absurd h hneg⟩
    · rw [htext, List.head?_cons, Option.some_inj]
      exact iff_of_false (digitByte_ne_minus hd) hneg
    rw [htext, List.head?_cons, Option.some_inj, hzero] at h
    have hm : v.toInt = 0 := Int.natAbs_eq_zero.1 (h0 h)
    rw [hm]
    rfl

end Sys2Proof.Machine
end

