-- ==== Sys2Proof/Proofs/ControlTransfer.lean ====
section
/-! PROOFS. Jumps, the pseudo-instructions and the call idiom, and an instruction that is stored or placed where the next fetch
reads it (spec/10_state.md R25, spec/30_encoding.md R69, spec/40_dispatch.md R89, R96, spec/70_reset_and_hazards.md R248). -/

namespace Sys2Proof.Machine

variable {s : State} {i : Instr}

/-! ## Register 0 -/

/-- An operand read of register 0 is the address of the next instruction (R88). -/
theorem operandValue_zero (w : Nat) (s : State) : operandValue w s 0 = s.ip + BitVec.ofNat 32 w := if_pos rfl

theorem operandValue_of_ne_zero {r : RegIx} (hr : r ≠ 0) (w : Nat) (s : State) : operandValue w s r = s.reg r := if_neg hr

/-- Inside memory the address of the next instruction does not wrap. -/
theorem toNat_ip_add {w : Nat} (h : s.ip.toNat + w ≤ Config.memorySize) :
    (s.ip + BitVec.ofNat 32 w).toNat = s.ip.toNat + w := by
  simp only [Config.memorySize] at h
  rw [BitVec.toNat_add, BitVec.toNat_ofNat, Nat.mod_eq_of_lt (a := w) (by omega), Nat.mod_eq_of_lt (by omega)]

/-- A write of register 0 after the advance sets the IP (R25). -/
theorem ip_setReg_zero (s : State) (v : Word) : (s.setReg 0 v).ip = v := s.reg_setReg_self 0 v

/-- A jump sets the IP to the value of its immediate (R69). -/
theorem exec_pseudoJump (s : State) (imm : BitVec 16) :
    exec (pseudoJump imm) s = .next ((s.advanceIp 4).setReg 0 (immValue imm)) := exec_loadImmediate_regByte s 0 imm

theorem toInt_ip_of_jump (s : State) (imm : BitVec 16) : (s.setReg 0 (immValue imm)).ip.toInt = imm.toInt := by
  rw [ip_setReg_zero, toInt_immValue]

/-- Settles O38: a jump is one register write, and the bound on the IP is the next fetch's first check. -/
theorem jumpTargetIsCheckedAtNextFetch : Obligations.JumpTargetIsCheckedAtNextFetch :=
  fun imm s hrun => ⟨_, exec_pseudoJump s imm, hrun, toInt_ip_of_jump _ imm,
    fun hip => step_of_fetch_eq_error hrun (fetch_of_memorySize_le_ip hip)⟩

/-- move-if on a nonzero condition writes its destination (R100). -/
theorem exec_moveIf_regByte_of_ne_zero {c : RegIx} (hc : operandValue 4 s c ≠ 0) (a b : RegIx) :
    exec (.moveIf (regByte a) (regByte b) (regByte c)) s = .next ((s.advanceIp 4).setReg a (operandValue 4 s b)) :=
  (exec_moveIf_regByte s a b c).trans (congrArg _ (if_pos hc))

/-- Where four bytes fit at the IP, the address of the next instruction is a nonzero condition. -/
theorem operandValue_zero_ne_zero (h : s.ip.toNat + 4 ≤ Config.memorySize) : operandValue 4 s 0 ≠ 0 := by
  intro h0
  rw [operandValue_zero] at h0
  have : s.ip.toNat + 4 = 0 := (toNat_ip_add h).symm.trans (congrArg BitVec.toNat h0)
  omega

/-- Settles O40: each pseudo-instruction is one instruction of the machine, and register 0 is a nonzero condition. -/
theorem pseudoInstructionsDoWhatTheyName : Obligations.PseudoInstructionsDoWhatTheyName := by
  intro s hfits
  have next : operandValue 4 s 0 = s.ip + 4 := operandValue_zero 4 s
  refine ⟨fun imm => ?_, fun c d => ?_, fun a b => ?_, fun a => ?_, fun a => ?_, ?_⟩
  · exact ⟨_, exec_pseudoJump s imm, toInt_ip_of_jump _ imm⟩
  · obtain ⟨t, ht, hregs, -⟩ := moveIfMovesOnNonzeroCondition 0 d c s
    refine ⟨t, ht, (hregs 0).trans ?_⟩
    rw [next]
    exact if_congr (and_iff_left rfl) rfl rfl
  · exact ⟨_, exec_moveIf_regByte_of_ne_zero (operandValue_zero_ne_zero hfits) a b, State.reg_setReg_self _ _ _⟩
  · exact ⟨_, exec_moveIf_regByte_of_ne_zero (operandValue_zero_ne_zero hfits) a 0,
      (State.reg_setReg_self _ _ _).trans next⟩
  · exact ⟨_, exec_subtract_regByte s a a a, (State.reg_setReg_self _ _ _).trans (BitVec.sub_self _)⟩
  · obtain ⟨t, ht, hregs, hrest⟩ := moveIfMovesOnNonzeroCondition 1 1 1 s
    refine ⟨t, ht, fun r => (hregs r).trans ?_, hrest⟩
    split_ifs with h
    · rw [h.2]
    · rfl

/-- Settles O41: the subtraction of -4 leaves the address past the jump in the link register, which the jump does not write. -/
theorem callIdiomReturnsAfterTheJump : Obligations.CallIdiomReturnsAfterTheJump := by
  intro l k target s hl hk hfits
  have hk0 : k ≠ 0 := by
    rintro rfl
    have : s.ip.toNat = 0xFFFFFFFC := congrArg BitVec.toNat hk
    simp only [Config.memorySize] at hfits
    omega
  have hlink : operandValue 4 s 0 - operandValue 4 s k = s.ip + BitVec.ofNat 32 8 := by
    rw [operandValue_zero, operandValue_of_ne_zero hk0, hk]
    bv_omega
  have hkept (t : State) (v : Word) : ((t.advanceIp 4).setReg 0 v).reg l = t.reg l :=
    (State.reg_setReg_ne _ hl v).trans (t.reg_advanceIp_ne hl 4)
  have hreturn := toNat_ip_add hfits
  refine ⟨_, _, exec_subtract_regByte s l 0 k, exec_pseudoJump _ target, toInt_ip_of_jump _ target, ?_, fun w hw => ?_⟩
  · rw [hkept, State.reg_setReg_self, hlink, hreturn]
  · rw [hkept, State.reg_setReg_self, hlink] at hw
    have hcond : operandValue 4 w l = s.ip + BitVec.ofNat 32 8 := (operandValue_of_ne_zero hl 4 w).trans hw
    refine ⟨_, exec_moveIf_regByte_of_ne_zero (fun h0 => ?_) 0 l, ?_⟩
    · have : s.ip.toNat + 8 = 0 := hreturn.symm.trans (congrArg BitVec.toNat (hcond.symm.trans h0))
      omega
    · rw [ip_setReg_zero, hcond, hreturn]

/-! ## Self-modification and placed instructions -/

/-- Bytes that decode to an instruction still do with more bytes behind them. -/
theorem decode_append {bs rest : List Byte} (h : decode bs = .instr i rest) (more : List Byte) :
    decode (bs ++ more) = .instr i (rest ++ more) := by
  rw [decodedBytesAreTheEncoding bs rest i h, List.append_assoc]
  exact decodeReadsBackEncode i _

/-- A running machine whose memory was given the bytes of an instruction at the IP runs that instruction. -/
theorem step_of_mem_eq_writeBytes {m : Memory} {bs rest : List Byte} (hrun : s.status = .running) (hm : m.wf = true)
    (hfits : s.ip.toNat + bs.length ≤ Config.memorySize) (hmem : s.mem = m.writeBytes s.ip.toNat bs)
    (hdecode : decode bs = .instr i rest) : step s = exec i s := by
  have hbytes : bytesAtIp s =
      bs ++ s.mem.readBytes (s.ip.toNat + bs.length) (Config.memorySize - s.ip.toNat - bs.length) := by
    rw [bytesAtIp, show Config.memorySize - s.ip.toNat = bs.length + (Config.memorySize - s.ip.toNat - bs.length) by omega,
      Memory.readBytes_add, Nat.add_sub_cancel_left, hmem, Memory.readBytes_writeBytes hm hfits]
  exact stepRunsDecodedInstruction s i _ hrun (hbytes ▸ decode_append hdecode _)

/-- Settles O39: the advanced IP is the address of the store, so the stored bytes are those the next step decodes. -/
theorem storedInstructionRunsNext : Obligations.StoredInstructionRunsNext := by
  intro b s i rest hrun hm hfits hdecode
  have haddr : (operandValue 3 s 0).toNat = s.ip.toNat + 3 := by
    rw [operandValue_zero]
    exact toNat_ip_add (by omega)
  refine ⟨_, exec_store_regByte_of_fits (by omega) b, ?_⟩
  refine step_of_mem_eq_writeBytes (bs := bytesOf (operandValue 3 s b)) hrun hm ?_ ?_ hdecode
  · rw [State.ip_setMem, State.ip_advanceIp, toNat_ip_add (by omega), length_bytesOf]
    omega
  · rw [State.setMem_mem, State.ip_setMem, State.ip_advanceIp, operandValue_zero]

/-- What a table word decodes to is decoded from its four bytes. -/
theorem decode_tableBytes {nbits w : Nat} (h : decodeTableWord nbits w = some i) :
    ∃ rest, decode (tableBytes nbits w) = .instr i rest := by
  unfold decodeTableWord at h
  cases hd : decode (tableBytes nbits w) with
  | instr j rest =>
    rw [hd] at h
    cases h
    exact ⟨rest, rfl⟩
  | unknownOpcode | truncated =>
    rw [hd] at h
    cases h

/-- Settles O48: the placed bytes are those the next step decodes. -/
theorem placedWordRunsNext : Obligations.PlacedWordRunsNext := by
  intro s nbits w i hm hfits h
  obtain ⟨rest, hdecode⟩ := decode_tableBytes h
  exact step_of_mem_eq_writeBytes (s := s.withFetchWord nbits w) (bs := tableBytes nbits w) rfl hm hfits rfl hdecode

end Sys2Proof.Machine
end

