-- ==== Sys2Proof/Proofs/HostTransactions.lean ====
section
/-! PROOFS. Construction and reset, the bounded RUN, the inspection reads and the word STATUS (spec/10_state.md R27 and R32,
spec/40_dispatch.md R93, spec/60_exceptions.md R214 and R215, spec/70_reset_and_hazards.md R240 to R242). -/

namespace Sys2Proof.Machine

/-! ## Construction and reset -/

/-- The bytes of a constructed memory are the image's, and 0 outside it (R242). -/
theorem Memory.readByte_ofImage {a x : Nat} {img : List Byte} :
    (Memory.ofImage a img).readByte x = if a ≤ x then img.getD (x - a) 0 else 0 := by
  induction img generalizing a with
  | nil => simp [Memory.ofImage, Memory.readByte, Memory.unlisted]
  | cons b bs ih =>
    have listed : (Memory.ofImage a (b :: bs)).readByte x = if a = x then b else (Memory.ofImage (a + 1) bs).readByte x := by
      by_cases hb : b = Memory.unlisted
      · rw [Memory.ofImage, if_pos hb, ih, hb]
        split_ifs with hlt hax
        · omega
        · rfl
        · rfl
        · rfl
      · rw [Memory.ofImage, if_neg hb, Memory.readByte]
    rw [listed, ih]
    obtain hlt | rfl | hgt := lt_trichotomy x a
    · rw [if_neg (by omega), if_neg (by omega), if_neg (by omega)]
    · simp
    · rw [if_neg (by omega), if_pos (by omega), if_pos (by omega), show x - a = x - (a + 1) + 1 by omega, List.getD_cons_succ]

/-- An accepted image is constructed from the reset state, with the sink kept (R242). -/
theorem load_of_length_le {img : List Byte} (h : img.length ≤ Config.memorySize) (s : State) :
    load img s = some { State.reset with mem := Memory.ofImage 0 img, sink := s.sink } := if_pos h

/-- Settles O42: the constructed memory reads as the image and then 0, and the rest of the state is that of reset. -/
theorem constructionCopiesImageAndZeroes : Obligations.ConstructionCopiesImageAndZeroes := by
  intro img s h
  refine ⟨_, load_of_length_le h s, fun a => ?_, State.reg_reset, rfl, rfl, rfl⟩
  rw [Memory.readByte_ofImage, if_pos (Nat.zero_le a), Nat.sub_zero]

/-- Settles O43: the length is checked first. -/
theorem oversizedImageIsRefused : Obligations.OversizedImageIsRefused := fun _ _ h => if_neg h.not_ge

/-- Settles O15: a constructed memory is canonical, and a constructed state is Running. -/
theorem resetAndLoadMeetInvariant : Obligations.ResetAndLoadMeetInvariant := by
  refine ⟨⟨Memory.wf_empty, nofun⟩, fun img s t h => ⟨load_wf h, ?_⟩⟩
  unfold load at h
  split_ifs at h
  cases h
  nofun

/-- Settles O44: reset is all zeroes, and the byte 0x00 at address 0 is no opcode. -/
theorem resetLeavesZeroesAndRuns : Obligations.ResetLeavesZeroesAndRuns :=
  ⟨State.reg_reset, fun _ => rfl, rfl, rfl,
    stepOnUnknownOpcodeFails State.reset rfl (by decide) (.inl rfl)⟩

/-! ## STATUS -/

/-- The status a STATUS word stands for; words of no status are read as Running. -/
def statusOfWord (w : Word) : Status :=
  match w.toNat with
  | 0x01 => .halted
  | 0x12 => .failed .programCounterOutOfBounds
  | 0x22 => .failed .registerOutOfRange
  | 0x32 => .failed .addressOutOfBounds
  | 0x42 => .failed .invalidCodePoint
  | 0x52 => .failed .unknownOpcode
  | 0x62 => .failed .outputFailed
  | 0x72 => .failed .haltedTwice
  | _ => .running

/-- The word of a status stands for that status (R27). -/
theorem statusOfWord_statusWord : Function.LeftInverse statusOfWord statusWord := by
  intro st
  cases st with
  | running | halted => rfl
  | failed k => cases k <;> rfl

/-- Settles O45: the fields of the nine words, and the status read back from its word. -/
theorem statusWordTellsStatusesApart : Obligations.StatusWordTellsStatusesApart := by
  refine ⟨fun st => ?_, fun _ _ h => statusOfWord_statusWord.injective h⟩
  cases st with
  | running | halted => decide
  | failed k => cases k <;> decide

/-! ## RUN -/

theorem runFor_of_status_ne_running {s : State} (h : s.status ≠ .running) (n : Nat) : runFor n s = some s := by
  cases n with
  | zero | succ n => exact if_neg h

theorem runFor_zero_of_running {s : State} (h : s.status = .running) : runFor 0 s = none := if_pos h

/-- The run of a running machine is its step and then the run of the state it answers (R93). -/
theorem runFor_succ_of_running {s : State} (h : s.status = .running) (n : Nat) :
    runFor (n + 1) s = (stateOf (step s)).bind (runFor n) := by
  rw [runFor, if_pos h]
  cases step s <;> rfl

/-- Settles O46: by induction on the bound, with the first step taken apart. -/
theorem runEndsInOneTerminalState : Obligations.RunEndsInOneTerminalState := by
  intro n k s t h
  induction n generalizing s with
  | zero =>
    by_cases hrun : s.status = .running
    · cases (runFor_zero_of_running hrun).symm.trans h
    · cases (runFor_of_status_ne_running hrun 0).symm.trans h
      exact ⟨runFor_of_status_ne_running hrun _, hrun⟩
  | succ n ih =>
    by_cases hrun : s.status = .running
    · rw [runFor_succ_of_running hrun, Option.bind_eq_some_iff] at h
      obtain ⟨u, hu, hut⟩ := h
      rw [Nat.add_right_comm, runFor_succ_of_running hrun, hu]
      exact ih u hut
    · cases (runFor_of_status_ne_running hrun (n + 1)).symm.trans h
      exact ⟨runFor_of_status_ne_running hrun _, hrun⟩

/-! ## Inspection -/

/-- Settles O47: each read checks its range and then reads the state. -/
theorem inspectionReadsOnlyInRange : Obligations.InspectionReadsOnlyInRange :=
  fun s => ⟨fun i => dif_pos i.isLt, fun _ h => dif_neg (by simp only [Config.numRegs]; omega),
    fun _ h => if_pos (Nat.lt_succ_of_le h), fun _ h => if_neg (by simp only [Config.memorySize]; omega)⟩

end Sys2Proof.Machine
end
